-- ==== Sys2Proof/Word.lean ====
section
/-! DEFINITION. The word types of the bus and the buffer (spec 20_memory.md R60, R61; 10_state.md R21, R41). -/

namespace Sys2Proof

/-- A 32-bit control register or bus data word. -/
abbrev Word := BitVec 32

/-- One byte of the message buffer. -/
abbrev Byte := BitVec 8

/-- A 17-bit byte address on the engine's bus port (R60): an offset from the engine's base. -/
abbrev BusAddr := BitVec 17

end Sys2Proof
end

