-- ==== Sys2Proof/Config.lean ====
section
/-! DEFINITION. What one build of the engine fixes (00_scope.md R7, R10, R74) and the values the spec leaves
unspecified (93_implementation_defined.md U3, U4, U5), each a constant without a body. -/

namespace Sys2Proof

/-- The elaboration parameters of one engine instance (00_scope.md R3). -/
structure Params where
  /-- `W`, the operand width in bits (R7). -/
  keyBits : Nat
  /-- `BUF_BYTES`, the size of the message buffer in bytes (R10). -/
  bufBytes : Nat
  deriving DecidableEq, Repr

/-- The build the spec calls the default: `W = 1024` (R7), `BUF_BYTES = 4096` (R10). -/
def Config.default : Params := { keyBits := 1024, bufBytes := 4096 }

/-- FREE VALUE (U4, R231; log 5): byte `i` of `BUF` at power-up, until something writes it. -/
opaque Config.powerUpByte : Nat → Byte

/-- FREE VALUE (U5, R230; log 6): the byte of draw number `n`, left in the destination range of a command that
reset abandoned. -/
opaque Config.freeByte : Nat → Byte

/-- FREE VALUE (U3, R235; log 4): the word of draw number `n`, answered to a host read made while busy. -/
opaque Config.freeWord : Nat → Word

/-- FREE VALUE (U12, R74; log 13): `BASE`, where the platform places the engine. No rule depends on it. -/
opaque Config.base : Nat

/-- The system address of an offset. Every offset of the spec is relative to `BASE` (R74, R100). -/
def Config.systemAddress (off : BusAddr) : Nat := Config.base + off.toNat

end Sys2Proof
end

