-- ==== Sys2Proof/Syntax.lean ====
section
/-! DEFINITION. The command set, one constructor per row of spec/opcode_table.json (30_encoding.md R92).
Every operand is implicit (R91), so no constructor carries one. -/

namespace Sys2Proof

/-- "MEE command set, version 1" (00_scope.md R2). -/
inductive Instr where
  /-- `GCD`, greatest common divisor (40_extended_gcd.md R126). -/
  | gcd
  /-- `XGCD`, extended Euclid (40_extended_gcd.md R127). -/
  | xgcd
  /-- `MODINV`, modular inverse (40_extended_gcd.md R128). -/
  | modinv
  /-- `MODEXP`, modular exponentiation (41_modexp.md R145). -/
  | modexp
  /-- `ENCRYPT`, blockwise encryption (42_block_cipher.md R167). -/
  | encrypt
  /-- `DECRYPT`, blockwise decryption (42_block_cipher.md R171). -/
  | decrypt
  deriving DecidableEq, Repr

end Sys2Proof
end

