-- ==== Sys2Proof/WellFormed.lean ====
section
/-! DEFINITION. Which builds are legal (00_scope.md R7, R10), which commands are well-formed (30_encoding.md R91)
and which moduli are well-formed (00_scope.md glossary, 42_block_cipher.md R176). -/

namespace Sys2Proof

/-- `W mod 8 = 0` and `16 <= W <= 4096` (R7). -/
def Params.keyBitsLegal (p : Params) : Bool :=
  p.keyBits % 8 == 0 && (decide (16 ≤ p.keyBits) && decide (p.keyBits ≤ 4096))

/-- `BUF_BYTES mod 4 = 0` and `4 <= BUF_BYTES <= 65536` (R10). -/
def Params.bufBytesLegal (p : Params) : Bool :=
  p.bufBytes % 4 == 0 && (decide (4 ≤ p.bufBytes) && decide (p.bufBytes ≤ 65536))

/-- A build the spec allows. -/
def Params.wf (p : Params) : Bool := p.keyBitsLegal && p.bufBytesLegal

/-- A command has no operand field that could be ill-formed (R91), so each is well-formed. -/
def Instr.wf : Instr → Bool
  | .gcd => true
  | .xgcd => true
  | .modinv => true
  | .modexp => true
  | .encrypt => true
  | .decrypt => true

/-- A well-formed modulus for width `W`: `2^(8(K-1)) <= M < 2^W` with `K = W / 8` (R176). The engine does not
check it. -/
def modulusWf (p : Params) (m : Nat) : Bool :=
  decide (2 ^ (8 * (p.keyBits / 8 - 1)) ≤ m) && decide (m < 2 ^ p.keyBits)

end Sys2Proof
end

