-- ==== Sys2Proof/Decode.lean ====
section
/-! DEFINITION. Decoding a command word (30_encoding.md R90 to R94), total on all `2^32` words, and the encoder. -/

namespace Sys2Proof

/-- `v[hi:lo]` (00_scope.md R15). -/
def bits (v hi lo : Nat) : Nat := v / 2 ^ lo % 2 ^ (hi - lo + 1)

/-- Why a word selects no command (R93). All three complete alike, with `ILLEGAL_CMD`. -/
inductive IllegalWord where
  /-- A bit of `RSV`, bits 31:5, is set. -/
  | reservedBits
  /-- `STRICT`, bit 4, is set: strict mode is not in version 1 (R3). -/
  | strictMode
  /-- `OP` is `0x0` or lies in `0x7` to `0xF`. -/
  | opcode
  deriving DecidableEq, Repr

/-- `Decode(w)` of R94. -/
def decode (w : Word) : Except IllegalWord Instr :=
  if bits w.toNat 31 4 ≠ 0 then
    .error (if bits w.toNat 31 5 ≠ 0 then .reservedBits else .strictMode)
  else
    match bits w.toNat 3 0 with
    | 1 => .ok .gcd
    | 2 => .ok .xgcd
    | 3 => .ok .modinv
    | 4 => .ok .modexp
    | 5 => .ok .encrypt
    | 6 => .ok .decrypt
    | _ => .error .opcode

/-- The opcode of a command (R92). -/
def opcode : Instr → Nat
  | .gcd => 1
  | .xgcd => 2
  | .modinv => 3
  | .modexp => 4
  | .encrypt => 5
  | .decrypt => 6

/-- The command word of a command: `OP` in bits 3:0, `STRICT` and `RSV` zero (R90, R92). -/
def encode (i : Instr) : Word := BitVec.ofNat 32 (opcode i)

/-- What the decoder reads from a word whose low `nbits` bits are those of `w` and whose other bits are 0; a number
that is no 32-bit word is no command word (R90). -/
def decodeTableWord (nbits w : Nat) : Option Instr :=
  if w % 2 ^ nbits < 2 ^ 32 then (decode (BitVec.ofNat 32 (w % 2 ^ nbits))).toOption else none

end Sys2Proof
end

