-- ==== Sys2Proof/Machine/State.lean ====
section
/-! DEFINITION. The state of one engine instance (10_state.md R21), the turns its environment takes, and reset. -/

namespace Sys2Proof.Machine

/-- The engine never stops with a fault: it has no trap, and every access and every command has an outcome
(60_exceptions.md R200, 70_reset_and_hazards.md R242, 93_implementation_defined.md section 2). So nobody raises one,
and the type has no constructor; that is safe. -/
inductive Fault where
  deriving DecidableEq, Repr

/-- Why `exec` gives no meaning. -/
inductive Refusal where
  /-- Raised by `exec` alone, for a command without a meaning yet; safe. No arm answers it. -/
  | notModelled (mnemonic : String)
  deriving DecidableEq, Repr

/-- `phase` (R42). -/
inductive Phase where
  | idle
  | busy
  deriving DecidableEq, Repr

/-- The six big registers, `x[0]` to `x[5]` (R22). -/
inductive BigReg where
  | A
  | E
  | M
  | R
  | X
  | Y
  deriving DecidableEq, Repr

/-- The named error codes of STATUS.ERRCODE (60_exceptions.md R201); the codes `0x8` to `0xF` are never reported. -/
inductive ErrCode where
  | noError
  | illegalCmd
  | noInverse
  | modZero
  | malformed
  | range
  | overlap
  | encOverflow
  deriving DecidableEq, Repr

/-- Who moves next: one turn of the interleaving of the host and the engine (20_memory.md R76, 60_exceptions.md R209;
log 2). -/
inductive Turn where
  /-- A host `Read(addr)` (R60). -/
  | read (addr : BusAddr)
  /-- A host `Write(addr, data)` (R60). -/
  | write (addr : BusAddr) (data : Word)
  /-- The reset input is driven to this level, `true` for asserted (R230). -/
  | reset (asserted : Bool)
  /-- The engine takes its Complete step if a command is in flight (R97). -/
  | engine
  deriving DecidableEq, Repr

/-- The message buffer: the bytes written since power-up, by rising address, no address twice (R41; log 5). -/
abbrev Memory := List Host.Cell

/-- Every piece of state the spec gives the engine (R21), then the model's own fields. -/
structure State where
  /-- `A` (R22). -/
  regA : Nat
  /-- `E` (R22). -/
  regE : Nat
  /-- `M` (R22). -/
  regM : Nat
  /-- `R` (R22). -/
  regR : Nat
  /-- `X` (R22). -/
  regX : Nat
  /-- `Y` (R22). -/
  regY : Nat
  /-- CTRL.IE, the one bit of CTRL that is stored (R35). -/
  ie : Bool
  /-- CMD (R36). -/
  cmd : Word
  /-- STATUS.DONE (R28). -/
  done : Bool
  /-- STATUS.ERR (R28). -/
  err : Bool
  /-- STATUS.WERR (R28). -/
  werr : Bool
  /-- STATUS.ERRCODE (R28). -/
  errCode : ErrCode
  /-- SRC (R37). -/
  src : Word
  /-- DST (R37). -/
  dst : Word
  /-- LEN (R37). -/
  len : Word
  /-- OUTLEN (R38). -/
  outlen : Word
  /-- FAILCNT (R39). -/
  failcnt : Word
  /-- XSIGN.XNEG (R31). -/
  xneg : Bool
  /-- XSIGN.YNEG (R31). -/
  yneg : Bool
  /-- `BUF` (R41). -/
  mem : Memory
  /-- `phase` (R42); STATUS.BUSY is `phase = busy` (R30). -/
  phase : Phase
  /-- The level of the reset input, `true` while asserted (R230). -/
  inReset : Bool
  /-- The model's own field: the build's parameters, changed by nothing (R7, R10; log 1). -/
  cfg : Params
  /-- The model's own field: the turns still to come, the next one first (log 2). -/
  schedule : List Turn
  /-- The model's own field: the data the last host read was answered with (R60; log 7). -/
  rdata : Word
  /-- The model's own field: how many free values have been drawn (log 4). -/
  draws : Nat
  deriving DecidableEq, Repr

/-- The engine right after power-up with reset released (R44, R233): every register 0, `phase` idle, `BUF` with
nothing written; the model's own fields at the values of log 1 and log 7. -/
def State.reset : State where
  regA := 0
  regE := 0
  regM := 0
  regR := 0
  regX := 0
  regY := 0
  ie := false
  cmd := 0
  done := false
  err := false
  werr := false
  errCode := .noError
  src := 0
  dst := 0
  len := 0
  outlen := 0
  failcnt := 0
  xneg := false
  yneg := false
  mem := []
  phase := .idle
  inReset := false
  cfg := Config.default
  schedule := []
  rdata := 0
  draws := 0

end Sys2Proof.Machine
end

