-- ==== Sys2Proof/Machine/Ops.lean ====
section
/-! DEFINITION. The named operations over the big registers and the buffer, accepting and completing a command, and
reset (10_state.md, 30_encoding.md R95, R97, 70_reset_and_hazards.md R230).

A processor's taking of an exception has one counterpart here: a command that fails completes with a code
(`raiseError`, R97, R200). There is no trap entry, no saved state and no return (R210, R211). -/

namespace Sys2Proof.Machine

/-! ### Big registers (R22) -/

/-- The register `x[i]` of an index (R16). An index above 5 does not occur in the address map (R63). -/
def bigRegOfIndex : Nat → BigReg
  | 0 => .A
  | 1 => .E
  | 2 => .M
  | 3 => .R
  | 4 => .X
  | _ => .Y

/-- The index of a big register (R22). -/
def bigRegIndex : BigReg → Nat
  | .A => 0
  | .E => 1
  | .M => 2
  | .R => 3
  | .X => 4
  | .Y => 5

/-- `x[i]`, read (R16). -/
def State.big (s : State) : BigReg → Nat
  | .A => s.regA
  | .E => s.regE
  | .M => s.regM
  | .R => s.regR
  | .X => s.regX
  | .Y => s.regY

/-- `x[i] <- v` (R16). -/
def State.setBig (s : State) (r : BigReg) (v : Nat) : State :=
  match r with
  | .A => { s with regA := v }
  | .E => { s with regE := v }
  | .M => { s with regM := v }
  | .R => { s with regR := v }
  | .X => { s with regX := v }
  | .Y => { s with regY := v }

/-- `A`, `E` and `M` are the registers the host writes; `R`, `X` and `Y` are read only to it (R23, R24). -/
def hostWritable : BigReg → Bool
  | .A => true
  | .E => true
  | .M => true
  | .R => false
  | .X => false
  | .Y => false

/-! ### The buffer (R17, R41) -/

/-- The byte listed at an address, if something has written one there. -/
def Memory.find (a : Nat) : Memory → Option Byte
  | [] => none
  | (b, v) :: rest => if a = b then some v else Memory.find a rest

/-- What an unlisted address reads as: its unspecified power-up byte (R231; log 5). -/
def Memory.unlisted (a : Nat) : Byte := Config.powerUpByte a

/-- `BUF[a]`. -/
def Memory.readByte (m : Memory) (a : Nat) : Byte := (Memory.find a m).getD (Memory.unlisted a)

/-- `BUF[a] <- v`. -/
def Memory.writeByte (a : Nat) (v : Byte) : Memory → Memory
  | [] => [(a, v)]
  | (b, u) :: rest =>
    if a < b then (a, v) :: (b, u) :: rest
    else if a = b then (a, v) :: rest
    else (b, u) :: Memory.writeByte a v rest

/-- `MemRead(addr, n)` (R17). -/
def Memory.readBytes (m : Memory) : Nat → Nat → List Byte
  | _, 0 => []
  | a, n + 1 => m.readByte a :: m.readBytes (a + 1) n

/-- `MemWrite(addr, len(bs), bs)` (R17). -/
def Memory.writeBytes (m : Memory) : Nat → List Byte → Memory
  | _, [] => m
  | a, b :: bs => Memory.writeBytes (Memory.writeByte a b m) (a + 1) bs

/-- Every listed address is `lo` or above, and addresses rise strictly. -/
def Memory.risesFrom : Nat → Memory → Bool
  | _, [] => true
  | lo, (a, _) :: rest => decide (lo ≤ a) && Memory.risesFrom (a + 1) rest

/-- The canonical form of the buffer's list: addresses strictly rising (log 5). -/
def Memory.wf (m : Memory) : Bool := Memory.risesFrom 0 m

/-- Every listed address lies in `[0, n)`. -/
def Memory.below (n : Nat) : Memory → Bool
  | [] => true
  | (a, _) :: rest => decide (a < n) && Memory.below n rest

/-- The addresses `a` to `a + n - 1` get unspecified bytes, the draws `d`, `d + 1`, … (U5). -/
def Memory.scramble (m : Memory) : Nat → Nat → Nat → Memory
  | _, 0, _ => m
  | a, n + 1, d => Memory.scramble (Memory.writeByte a (Config.freeByte d) m) (a + 1) n (d + 1)

/-! ### Issue and completion -/

/-- Accept (R95): one step, for every word, legal or not. -/
def State.accept (s : State) (w : Word) : State :=
  { s with cmd := w, done := false, err := false, errCode := .noError, phase := .busy }

/-- Completion without error (R97): BUSY and `phase` clear, DONE sets. ERR and ERRCODE keep what acceptance left in
them, 0. -/
def State.finish (s : State) : State := { s with done := true, phase := .idle }

/-- Completion with an error code (R97, R200): nothing but STATUS and `phase` changes. -/
def State.raiseError (s : State) (c : ErrCode) : State :=
  { s with err := true, errCode := c, done := true, phase := .idle }

/-- The Complete step for the outcome of `Run(c)` on `s` (R97): either the code it raised, or the state with the
command's writes. A failing command's writes do not take place (R18). -/
def State.complete (s : State) : Except ErrCode State → State
  | .error c => s.raiseError c
  | .ok t => t.finish

/-! ### Bus answers (R60) -/

/-- The data a host read is answered with. A read has no other effect (R72). -/
def State.answer (s : State) (w : Word) : State := { s with rdata := w }

/-- An unspecified answer: a fresh draw for each read (R235, U3). -/
def State.answerFree (s : State) : State :=
  { s with rdata := Config.freeWord s.draws, draws := s.draws + 1 }

/-- A host write dropped because the engine is busy (R236). -/
def State.dropWrite (s : State) : State := { s with werr := true }

/-! ### Reset (R230) -/

/-- Every register and `phase` at the values of R44. `BUF` and what the registers do not hold stay (R231). -/
def State.resetRegs (s : State) : State :=
  { s with
    regA := 0, regE := 0, regM := 0, regR := 0, regX := 0, regY := 0
    ie := false, cmd := 0, done := false, err := false, werr := false, errCode := .noError
    src := 0, dst := 0, len := 0, outlen := 0, failcnt := 0, xneg := false, yneg := false
    phase := .idle }

end Sys2Proof.Machine
end

