-- ==== Sys2Proof/Machine/Flags.lean ====
section
/-! DEFINITION. STATUS, CTRL and XSIGN as 32-bit words, the write-one-to-clear rule, the signs of XGCD, and the
interrupt output (10_state.md R28 to R31, R35; 60_exceptions.md R201, R207). -/

namespace Sys2Proof.Machine

/-- The number of an error code (R201). -/
def errCodeValue : ErrCode → Nat
  | .noError => 0
  | .illegalCmd => 1
  | .noInverse => 2
  | .modZero => 3
  | .malformed => 4
  | .range => 5
  | .overlap => 6
  | .encOverflow => 7

/-- STATUS.BUSY (R30). -/
def State.busy (s : State) : Bool := s.phase == .busy

/-- STATUS as the bus reads it (R28): bits 7:4 and 31:12 read 0. -/
def State.statusWord (s : State) : Word :=
  BitVec.ofNat 32 (s.busy.toNat + 2 * s.done.toNat + 4 * s.err.toNat + 8 * s.werr.toNat
    + 256 * errCodeValue s.errCode)

/-- CTRL as the bus reads it (R35): bits 31:1 read 0. -/
def State.ctrlWord (s : State) : Word := BitVec.ofNat 32 s.ie.toNat

/-- XSIGN as the bus reads it (R31): bits 31:2 read 0. -/
def State.xsignWord (s : State) : Word := BitVec.ofNat 32 (s.xneg.toNat + 2 * s.yneg.toNat)

/-- A host write to STATUS (R29): a 1 in bit 1, 2 or 3 clears DONE, ERR or WERR. -/
def State.clearStatus (s : State) (v : Word) : State :=
  { s with
    done := s.done && !v.getLsbD 1
    err := s.err && !v.getLsbD 2
    werr := s.werr && !v.getLsbD 3 }

/-- A host write to CTRL (R35): only bit 0 is stored. -/
def State.setCtrl (s : State) (v : Word) : State := { s with ie := v.getLsbD 0 }

/-- The sign bit of a Bézout coefficient: 1 exactly when it is negative, so zero has sign 0 (R127). -/
def signBit (v : Int) : Bool := decide (v < 0)

/-- The interrupt output (R207). -/
def State.irq (s : State) : Bool := s.done && s.ie

end Sys2Proof.Machine
end

