-- ==== Sys2Proof/Machine/Arith.lean ====
section
/-! DEFINITION. The number theory of the XGU and the MEU over exact integers (00_scope.md R13, R14;
40_extended_gcd.md R120 to R125; 41_modexp.md R140). Each recursion counts down a number its rule says is enough. -/

namespace Sys2Proof.Machine

/-- `bitlength(v)`: the least `L` with `v < 2^L` (R14). -/
def bitLength (v : Nat) : Nat := if v = 0 then 0 else Nat.log2 v + 1

/-- The recursion of R120, at most `n` levels deep. -/
def gcdRec : Nat → Nat → Nat → Nat
  | 0, a, _ => a
  | n + 1, a, b => if b = 0 then a else gcdRec n b (a % b)

/-- `Gcd(a, b)` (R120). The second argument strictly decreases, so `b` levels are enough. -/
def gcd (a b : Nat) : Nat := gcdRec b a b

/-- A triple `(x, y, g)` with `x` and `y` possibly negative (R121). -/
structure Bezout where
  x : Int
  y : Int
  g : Nat
  deriving DecidableEq, Repr

/-- One return of the recursion of R121: from the triple of `(m, a mod m)` to that of `(a, m)`. -/
def bezoutStep (q : Nat) (t : Bezout) : Bezout := { x := t.y, y := t.x - (q : Int) * t.y, g := t.g }

/-- The recursion of R121, at most `n` levels deep. -/
def extEuclidRec : Nat → Nat → Nat → Bezout
  | 0, a, _ => { x := 1, y := 0, g := a }
  | n + 1, a, m =>
    if m = 0 then { x := 1, y := 0, g := a } else bezoutStep (a / m) (extEuclidRec n m (a % m))

/-- `ExtEuclid(a, m)` (R121), the normative definition. The second argument strictly decreases. -/
def extEuclid (a m : Nat) : Bezout := extEuclidRec m a m

/-- The loop of R122, at most `n` rounds. -/
def extEuclidLoop : Nat → Nat → Nat → Int → Int → Int → Int → Bezout
  | 0, r0, _, s0, _, t0, _ => { x := s0, y := t0, g := r0 }
  | n + 1, r0, r1, s0, s1, t0, t1 =>
    if r1 = 0 then { x := s0, y := t0, g := r0 }
    else extEuclidLoop n r1 (r0 - r0 / r1 * r1) s1 (s0 - (r0 / r1 : Nat) * s1) t1 (t0 - (r0 / r1 : Nat) * t1)

/-- The iteration the XGU may compute instead (R122). The model's commands use `extEuclid`. -/
def extEuclidIter (a m : Nat) : Bezout := extEuclidLoop m a m 1 0 0 1

/-- `ModInverse(e, m)` (R125): `NO_INVERSE` first, then `MOD_ZERO`, else `x mod m` in `[0, m)` (R14). -/
def modInverse (e m : Nat) : Except ErrCode Nat :=
  if (extEuclid e m).g ≠ 1 then .error .noInverse
  else if m = 0 then .error .modZero
  else .ok ((extEuclid e m).x % (m : Int)).toNat

/-- The loop of R140, at most `n` rounds. -/
def modExpLoop (m : Nat) : Nat → Nat → Nat → Nat → Nat
  | 0, _, _, r => r
  | n + 1, b, e, r =>
    if e = 0 then r
    else modExpLoop m n (b * b % m) (e / 2) (if e % 2 = 1 then r * b % m else r)

/-- `ModExp(base, exp, mod)` (R140). The loop runs `bitlength(exp)` times (R143). -/
def modExp (base exp mod : Nat) : Nat := modExpLoop mod (bitLength exp) (base % mod) exp 1

end Sys2Proof.Machine
end

