-- ==== Sys2Proof/Machine/Codec.lean ====
section
/-! DEFINITION. The BlockCodec functions (42_block_cipher.md R160 to R163). -/

namespace Sys2Proof.Machine

/-- `BeToInt(bs)`: big-endian, the empty list is 0 (R160). -/
def beToInt : List Byte → Nat
  | [] => 0
  | b :: bs => b.toNat * 256 ^ bs.length + beToInt bs

/-- The bytes of `IntToBe(v, w)` when `v` fits (R161). -/
def beBytes (v w : Nat) : List Byte :=
  (List.range w).map fun i => BitVec.ofNat 8 (v / 256 ^ (w - 1 - i) % 256)

/-- `IntToBe(v, w)` (R161). -/
def intToBe (v w : Nat) : Except ErrCode (List Byte) :=
  if v ≥ 2 ^ (8 * w) then .error .encOverflow else .ok (beBytes v w)

/-- `ceil(a / b)` (R14). -/
def ceilDiv (a b : Nat) : Nat := (a + b - 1) / b

/-- `Blocks(L, s)`: the `(offset, length)` pairs in index order (R162). -/
def blocks (L s : Nat) : List (Nat × Nat) :=
  (List.range (ceilDiv L s)).map fun i => (i * s, min s (L - i * s))

/-- `StripLeadingZeros(bs)` (R163). -/
def stripLeadingZeros : List Byte → List Byte
  | [] => []
  | b :: bs => if b = 0 then stripLeadingZeros bs else b :: bs

end Sys2Proof.Machine
end

