-- ==== Sys2Proof/Machine/Operands.lean ====
section
/-! DEFINITION. The derived widths, the words of a big register on the bus, and the operands and buffer ranges of the
block commands (00_scope.md R8, R9; 20_memory.md R64, R66; 30_encoding.md R91; 42_block_cipher.md R164 to R166). -/

namespace Sys2Proof.Machine

/-- `K = W / 8` (R8). -/
def keyBytes (p : Params) : Nat := p.keyBits / 8

/-- `NW = ceil(W / 32)` (R9). -/
def numWords (p : Params) : Nat := ceilDiv p.keyBits 32

/-- Word `j` of a big register's value: its bits `32j+31` to `32j` (R64). -/
def bigWord (v j : Nat) : Word := BitVec.ofNat 32 (bits v (32 * j + 31) (32 * j))

/-- A big register's value after a write to word `j < NW`: bits `32j` to `32j+31` below `W` are the data's, the data
bits at or above `W` are discarded, every other bit keeps its value (R64, R65). -/
def putBigWord (w v j : Nat) (data : Word) : Nat :=
  let n := min 32 (w - 32 * j)
  v % 2 ^ (32 * j) + data.toNat % 2 ^ n * 2 ^ (32 * j) + v / 2 ^ (32 * j + n) * 2 ^ (32 * j + n)

/-- Byte lane `j` of a bus word: data bits `8j+7` to `8j` (R66). -/
def lane (data : Word) (j : Nat) : Byte := BitVec.ofNat 8 (bits data.toNat (8 * j + 7) (8 * j))

/-- Word `k` of the buffer window: little-endian lanes (R66). -/
def bufWord (m : Memory) (k : Nat) : Word :=
  BitVec.ofNat 32 ((m.readByte (4 * k + 3)).toNat * 2 ^ 24 + (m.readByte (4 * k + 2)).toNat * 2 ^ 16
    + (m.readByte (4 * k + 1)).toNat * 2 ^ 8 + (m.readByte (4 * k)).toNat)

/-- `EncOutLen(L) = ceil(L / (K - 1)) * K` (R164). -/
def encOutLen (p : Params) (L : Nat) : Nat := ceilDiv L (keyBytes p - 1) * keyBytes p

/-- `RangeOK(off, n)`, computed exactly (R165). -/
def rangeOk (p : Params) (off n : Nat) : Bool := decide (off + n ≤ p.bufBytes)

/-- `Overlaps(a, la, b, lb)` (R166). -/
def overlaps (a la b lb : Nat) : Bool :=
  decide (0 < la) && decide (0 < lb) && decide (a < b + lb) && decide (b < a + la)

/-- The number of bytes `ENCRYPT` writes with the operands held (R164, R167). -/
def State.encLen (s : State) : Nat := encOutLen s.cfg s.len.toNat

/-- The destination range, `(offset, length)`, that the command in flight may have written to when reset abandons it:
that of `ENCRYPT` or `DECRYPT`, clipped to `[0, BUF_BYTES)`; empty for every other word (R230; log 6). -/
def State.abandonedRange (s : State) : Nat × Nat :=
  match s.phase, decode s.cmd with
  | .busy, .ok .encrypt => (s.dst.toNat, min s.encLen (s.cfg.bufBytes - s.dst.toNat))
  | .busy, .ok .decrypt => (s.dst.toNat, min s.len.toNat (s.cfg.bufBytes - s.dst.toNat))
  | _, _ => (0, 0)

/-- The abandoned range holds unspecified bytes, one draw per byte (R230, U5). -/
def State.abandon (s : State) : State :=
  { s with
    mem := s.mem.scramble s.abandonedRange.1 s.abandonedRange.2 s.draws
    draws := s.draws + s.abandonedRange.2 }

/-- The reset input is driven to a level (R230): asserting it abandons a command in flight and resets every register,
releasing it leaves them at those values, and driving it to the level it has changes nothing. -/
def State.driveReset (s : State) (asserted : Bool) : State :=
  if asserted then
    if s.inReset then s else { s.abandon.resetRegs with inReset := true }
  else
    if s.inReset then { s.resetRegs with inReset := false } else s

end Sys2Proof.Machine
end

