-- ==== Sys2Proof/Machine/Bus.lean ====
section
/-! DEFINITION. The host's bus port: the address map and what a read and a write do (20_memory.md R60 to R66,
10_state.md R23, R24, R29, R31 to R39, 70_reset_and_hazards.md R232, R235, R236). -/

namespace Sys2Proof.Machine

/-- What the address map places at a bus word (R63). -/
inductive Location where
  | id
  | keybits
  | bufbytes
  | ctrl
  | cmd
  | status
  | src
  | dst
  | len
  | outlen
  | failcnt
  | xsign
  /-- Word `j` of a big register, `j` in `0..127` (R64). -/
  | big (r : BigReg) (j : Nat)
  /-- Word `k` of the buffer window (R66). -/
  | buf (k : Nat)
  /-- Mapped to nothing or reserved (R62). -/
  | reserved
  deriving DecidableEq, Repr

/-- The twelve control registers, by word number (R63). -/
def controlLocation : Nat → Location
  | 0 => .id
  | 1 => .keybits
  | 2 => .bufbytes
  | 3 => .ctrl
  | 4 => .cmd
  | 5 => .status
  | 6 => .src
  | 7 => .dst
  | 8 => .len
  | 9 => .outlen
  | 10 => .failcnt
  | 11 => .xsign
  | _ => .reserved

/-- The map of R63. Address bits 1:0 are ignored: an access to `addr` is one to `addr - (addr mod 4)` (R61). -/
def locate (addr : BusAddr) : Location :=
  let off := addr.toNat - addr.toNat % 4
  if off < 0x01000 then controlLocation (off / 4)
  else if off < 0x01C00 then .big (bigRegOfIndex ((off - 0x01000) / 0x200)) ((off - 0x01000) % 0x200 / 4)
  else if off < 0x10000 then .reserved
  else .buf ((off - 0x10000) / 4)

/-- ID (R32). -/
def idWord : Word := 0x52534131

/-- The current value at a location. Words of a big register at or above `NW` and buffer words at or above
`BUF_BYTES` read 0 (R64, R66), and so do reserved offsets (R62). -/
def State.readLocation (s : State) : Location → Word
  | .id => idWord
  | .keybits => BitVec.ofNat 32 (bits s.cfg.keyBits 15 0)
  | .bufbytes => BitVec.ofNat 32 s.cfg.bufBytes
  | .ctrl => s.ctrlWord
  | .cmd => s.cmd
  | .status => s.statusWord
  | .src => s.src
  | .dst => s.dst
  | .len => s.len
  | .outlen => s.outlen
  | .failcnt => s.failcnt
  | .xsign => s.xsignWord
  | .big r j => if j < numWords s.cfg then bigWord (s.big r) j else 0
  | .buf k => if 4 * k < s.cfg.bufBytes then bufWord s.mem k else 0
  | .reserved => 0

/-- Where a read made while busy is unspecified (R235; log 10). -/
def unspecifiedWhileBusy (p : Params) : Location → Bool
  | .big r _ => !hostWritable r
  | .outlen => true
  | .failcnt => true
  | .xsign => true
  | .buf k => decide (4 * k < p.bufBytes)
  | _ => false

/-- A host read (R60, R72): 0 while reset is asserted (R232), a fresh draw where it is unspecified (R235), else the
current value. -/
def State.hostRead (s : State) (addr : BusAddr) : State :=
  if s.inReset then s.answer 0
  else if s.busy && unspecifiedWhileBusy s.cfg (locate addr) then s.answerFree
  else s.answer (s.readLocation (locate addr))

/-- Where a write made while busy is dropped and sets WERR (R236; log 11). -/
def droppedWhileBusy : Location → Bool
  | .cmd => true
  | .src => true
  | .dst => true
  | .len => true
  | .big _ _ => true
  | .buf _ => true
  | _ => false

/-- The effect of a write that is not dropped. Read-only registers and reserved offsets ignore it (R24, R31 to R34,
R38, R39, R62), and so do words of a big register at or above `NW` and of the buffer at or above `BUF_BYTES`. -/
def State.writeLocation (s : State) (v : Word) : Location → State
  | .ctrl => s.setCtrl v
  | .cmd => s.accept v
  | .status => s.clearStatus v
  | .src => { s with src := v }
  | .dst => { s with dst := v }
  | .len => { s with len := v }
  | .big r j =>
    if hostWritable r && decide (j < numWords s.cfg) then s.setBig r (putBigWord s.cfg.keyBits (s.big r) j v) else s
  | .buf k =>
    if 4 * k < s.cfg.bufBytes then
      { s with mem := s.mem.writeBytes (4 * k) [lane v 0, lane v 1, lane v 2, lane v 3] }
    else s
  | .id => s
  | .keybits => s
  | .bufbytes => s
  | .outlen => s
  | .failcnt => s
  | .xsign => s
  | .reserved => s

/-- A host write (R60): ignored while reset is asserted (R232), dropped with WERR where the engine is busy with the
location (R236), else stored. -/
def State.hostWrite (s : State) (addr : BusAddr) (v : Word) : State :=
  if s.inReset then s
  else if s.busy && droppedWhileBusy (locate addr) then s.dropWrite
  else s.writeLocation v (locate addr)

end Sys2Proof.Machine
end

