-- ==== Sys2Proof/Machine/Bco.lean ====
section
/-! DEFINITION. The block_cipher_orchestrator's commands (42_block_cipher.md R167, R171). -/

namespace Sys2Proof.Machine

/-- The loop of R167 over the blocks that are left: block number `i` is read at `src + off`, exponentiated, and
written as `k` bytes at `dst + i*k`. `IntToBe` raises where its rule does (R161); R168 says it never does here. -/
def encryptBlocks (k e n src dst : Nat) : Nat → List (Nat × Nat) → Memory → Except ErrCode Memory
  | _, [], m => .ok m
  | i, (off, len) :: rest, m =>
    match intToBe (modExp (beToInt (m.readBytes (src + off) len)) e n) k with
    | .error c => .error c
    | .ok bs => encryptBlocks k e n src dst (i + 1) rest (m.writeBytes (dst + i * k) bs)

/-- `Run(ENCRYPT)` (R167), the tests in the order of R205. -/
def runEncrypt (s : State) : Except ErrCode State :=
  if s.regM = 0 then .error .modZero
  else if !(rangeOk s.cfg s.src.toNat s.len.toNat && rangeOk s.cfg s.dst.toNat s.encLen) then .error .range
  else if overlaps s.src.toNat s.len.toNat s.dst.toNat s.encLen then .error .overlap
  else
    (encryptBlocks (keyBytes s.cfg) s.regE s.regM s.src.toNat s.dst.toNat 0
      (blocks s.len.toNat (keyBytes s.cfg - 1)) s.mem).map
      fun m => { s with mem := m, outlen := BitVec.ofNat 32 s.encLen, failcnt := 0 }

/-- `ENCRYPT` and its completion (R167, R97). -/
def execEncrypt (s : State) : Host.Outcome State Fault Refusal := .next (s.complete (runEncrypt s))

/-- What the decryption loop carries: the buffer, `pos` and `fails` (R171). -/
structure DecryptAcc where
  mem : Memory
  pos : Nat
  fails : Nat
  deriving DecidableEq, Repr

/-- One block of R171 that decrypted to `p`: re-encoded in `k` bytes, stripped and appended, or, where it does not
fit, counted and skipped. -/
def decryptPut (k dst p : Nat) (acc : DecryptAcc) : DecryptAcc :=
  match intToBe p k with
  | .error _ => { acc with fails := acc.fails + 1 }
  | .ok bs =>
    { acc with
      mem := acc.mem.writeBytes (dst + acc.pos) (stripLeadingZeros bs)
      pos := acc.pos + (stripLeadingZeros bs).length }

/-- The loop of R171 from block number `i` on, with the number of blocks left. -/
def decryptBlocks (k d n src dst : Nat) : Nat → Nat → DecryptAcc → DecryptAcc
  | _, 0, acc => acc
  | i, left + 1, acc =>
    decryptBlocks k d n src dst (i + 1) left
      (decryptPut k dst (modExp (beToInt (acc.mem.readBytes (src + i * k) k)) d n) acc)

/-- `Run(DECRYPT)` (R171), the tests in the order of R205. -/
def runDecrypt (s : State) : Except ErrCode State :=
  if s.len.toNat % keyBytes s.cfg ≠ 0 then .error .malformed
  else if s.regM = 0 then .error .modZero
  else if !(rangeOk s.cfg s.src.toNat s.len.toNat && rangeOk s.cfg s.dst.toNat s.len.toNat) then .error .range
  else if overlaps s.src.toNat s.len.toNat s.dst.toNat s.len.toNat then .error .overlap
  else
    let acc := decryptBlocks (keyBytes s.cfg) s.regE s.regM s.src.toNat s.dst.toNat 0
      (s.len.toNat / keyBytes s.cfg) { mem := s.mem, pos := 0, fails := 0 }
    .ok { s with mem := acc.mem, outlen := BitVec.ofNat 32 acc.pos, failcnt := BitVec.ofNat 32 acc.fails }

/-- `DECRYPT` and its completion (R171, R97). -/
def execDecrypt (s : State) : Host.Outcome State Fault Refusal := .next (s.complete (runDecrypt s))

end Sys2Proof.Machine
end

