-- ==== Sys2Proof/Machine/Meu.lean ====
section
/-! DEFINITION. The modular_exponentiation_engine unit's command (41_modexp.md R145). -/

namespace Sys2Proof.Machine

/-- `Run(MODEXP)` (R145). -/
def runModexp (s : State) : Except ErrCode State :=
  if s.regM = 0 then .error .modZero else .ok { s with regR := modExp s.regA s.regE s.regM }

/-- `MODEXP` and its completion (R145, R97). -/
def execModexp (s : State) : Host.Outcome State Fault Refusal := .next (s.complete (runModexp s))

end Sys2Proof.Machine
end

