-- ==== Sys2Proof/Machine/Xgu.lean ====
section
/-! DEFINITION. The extended_gcd_unit's commands (40_extended_gcd.md R126 to R128). -/

namespace Sys2Proof.Machine

/-- `Run(GCD)` (R126). -/
def runGcd (s : State) : Except ErrCode State := .ok { s with regR := gcd s.regA s.regM }

/-- `GCD` and its completion (R126, R97). -/
def execGcd (s : State) : Host.Outcome State Fault Refusal := .next (s.complete (runGcd s))

/-- The writes of `XGCD` for a triple: sign and magnitude (R127). -/
def State.putBezout (s : State) (t : Bezout) : State :=
  { s with regR := t.g, regX := t.x.natAbs, regY := t.y.natAbs, xneg := signBit t.x, yneg := signBit t.y }

/-- `Run(XGCD)` (R127). -/
def runXgcd (s : State) : Except ErrCode State := .ok (s.putBezout (extEuclid s.regA s.regM))

/-- `XGCD` and its completion (R127, R97). -/
def execXgcd (s : State) : Host.Outcome State Fault Refusal := .next (s.complete (runXgcd s))

/-- `Run(MODINV)` (R128): only `R` is written. -/
def runModinv (s : State) : Except ErrCode State :=
  (modInverse s.regA s.regM).map fun v => { s with regR := v }

/-- `MODINV` and its completion (R128, R97). -/
def execModinv (s : State) : Host.Outcome State Fault Refusal := .next (s.complete (runModinv s))

end Sys2Proof.Machine
end

