-- ==== Sys2Proof/Machine/Turns.lean ====
section
/-! DEFINITION. What one turn of the host or of the engine does (30_encoding.md R97, R98; 70_reset_and_hazards.md
R230, R242). -/

namespace Sys2Proof.Machine

/-- Complete (R97): the command in CMD runs as the state stands, or the word is illegal and the command ends with
`ILLEGAL_CMD` and no other effect (R93). -/
def completeCommand (s : State) : Host.Outcome State Fault Refusal :=
  match decode s.cmd with
  | .ok i => exec i s
  | .error _ => .next (s.raiseError .illegalCmd)

/-- The engine's turn: its one step while a command is in flight (R97, R98), nothing while idle (R233). -/
def engineTurn (s : State) : Host.Outcome State Fault Refusal :=
  match s.phase with
  | .busy => completeCommand s
  | .idle => .next s

/-- One turn. -/
def takeTurn (t : Turn) (s : State) : Host.Outcome State Fault Refusal :=
  match t with
  | .read addr => .next (s.hostRead addr)
  | .write addr v => .next (s.hostWrite addr v)
  | .reset level => .next (s.driveReset level)
  | .engine => engineTurn s

/-- The next turn of the schedule; with no turn left the environment is quiet and the engine has the turn, so a
command in flight completes (R98; log 2). -/
def nextTurn (s : State) : Host.Outcome State Fault Refusal :=
  match s.schedule with
  | [] => engineTurn s
  | t :: rest => takeTurn t { s with schedule := rest }

/-- A command word in flight whose Complete step comes next: what acceptance leaves (R95), reset released, the
engine's turn first (log 3). -/
def State.inFlight (s : State) (w : Word) : State :=
  { s.accept w with inReset := false, schedule := .engine :: s.schedule }

end Sys2Proof.Machine
end

