-- ==== Sys2Proof/Machine/HostProgram.lean ====
section
/-! DEFINITION. The spec's notation for host programs (30_encoding.md R100, R101; log 14): lines of bus operations, the
host that runs them beside the engine, and the pseudo-operations. Host values are no engine state (R100). -/

namespace Sys2Proof.Machine

/-- What a `WR` line writes. -/
inductive HostValue where
  | lit (v : Word)
  | var (t : Nat)
  /-- The bits `keep` of variable `t`, and `v` in the other bits: how `LDBUF` preserves bytes (R101). -/
  | patched (t : Nat) (keep v : Word)
  deriving DecidableEq, Repr

/-- One line (R100). A label is the number of the line it stands before. -/
inductive HostLine where
  /-- `WR off, v`. -/
  | wr (off : BusAddr) (v : HostValue)
  /-- `RD off -> t`. -/
  | rd (off : BusAddr) (t : Nat)
  /-- `BIT t, n, label`. -/
  | bit (t n label : Nat)
  /-- `JMP label`. -/
  | jmp (label : Nat)
  /-- `HALT`. -/
  | halt
  deriving DecidableEq, Repr

/-- A host in the middle of a program: the line it is at and its 32-bit variables, 0 until assigned. -/
structure HostRun where
  lines : List HostLine
  pos : Nat
  vars : List Word
  deriving DecidableEq, Repr

/-- The line the host is at; past the last line the program stops. -/
def HostRun.line (h : HostRun) : HostLine := h.lines.getD h.pos .halt

/-- A host variable. -/
def HostRun.var (h : HostRun) (t : Nat) : Word := h.vars.getD t 0

/-- A list of variables with one assigned. -/
def putVar : List Word → Nat → Word → List Word
  | [], 0, w => [w]
  | [], t + 1, w => 0 :: putVar [] t w
  | _ :: vs, 0, w => w :: vs
  | v :: vs, t + 1, w => v :: putVar vs t w

/-- The word a `WR` line writes. -/
def HostRun.value (h : HostRun) : HostValue → Word
  | .lit v => v
  | .var t => h.var t
  | .patched t keep v => (h.var t &&& keep) ||| (v &&& ~~~keep)

/-- The bus operation of the line, if it has one. -/
def HostRun.turn (h : HostRun) : Option Turn :=
  match h.line with
  | .wr off v => some (.write off (h.value v))
  | .rd off _ => some (.read off)
  | .bit _ _ _ => none
  | .jmp _ => none
  | .halt => none

/-- The host after its line, given the data the bus answered. Lines run in order unless `BIT` or `JMP` transfers. -/
def HostRun.advance (h : HostRun) (data : Word) : HostRun :=
  match h.line with
  | .wr _ _ => { h with pos := h.pos + 1 }
  | .rd _ t => { h with pos := h.pos + 1, vars := putVar h.vars t data }
  | .bit t n label => { h with pos := if (h.var t).getLsbD n then label else h.pos + 1 }
  | .jmp label => { h with pos := label }
  | .halt => h

/-- A host program running beside the engine. -/
structure System where
  host : HostRun
  engine : State
  deriving DecidableEq, Repr

/-- One line of the host. -/
def System.hostMove (y : System) : Host.Outcome System Fault Refusal :=
  match y.host.turn with
  | none => .next { y with host := y.host.advance 0 }
  | some t =>
    match takeTurn t y.engine with
    | .next s => .next { host := y.host.advance s.rdata, engine := s }
    | .fault f => .fault f
    | .refused r => .refused r

/-- One turn of the engine. -/
def System.engineMove (y : System) : Host.Outcome System Fault Refusal :=
  match engineTurn y.engine with
  | .next s => .next { y with engine := s }
  | .fault f => .fault f
  | .refused r => .refused r

/-- The two agents under a given interleaving, `true` for the engine's turn (R209). -/
def System.run : List Bool → System → Host.Outcome System Fault Refusal
  | [], y => .next y
  | b :: rest, y =>
    match if b then y.engineMove else y.hostMove with
    | .next z => System.run rest z
    | .fault f => .fault f
    | .refused r => .refused r

/-! ### Pseudo-operations (R101) -/

/-- The offset of word `j` of a big register (R64). -/
def bigAddr (r : BigReg) (j : Nat) : BusAddr := BitVec.ofNat 17 (0x01000 + 0x200 * bigRegIndex r + 4 * j)

/-- The offset of word `k` of the buffer window (R66). -/
def bufAddr (k : Nat) : BusAddr := BitVec.ofNat 17 (0x10000 + 4 * k)

/-- `LDBIG reg, v`. -/
def ldBig (p : Params) (r : BigReg) (v : Nat) : List HostLine :=
  (List.range (numWords p)).map fun j => .wr (bigAddr r j) (.lit (bigWord v j))

/-- `RDBIG reg -> t`, its reads, into the variables `t`, `t + 1`, …. -/
def rdBig (p : Params) (r : BigReg) (t : Nat) : List HostLine :=
  (List.range (numWords p)).map fun j => .rd (bigAddr r j) (t + j)

/-- `RDBIG reg -> t`, its sum of `t_j * 2^(32j)`. -/
def rdBigValue : List Word → Nat
  | [] => 0
  | w :: ws => w.toNat + 2 ^ 32 * rdBigValue ws

/-- `ISSUE mnem`. -/
def issue (i : Instr) : List HostLine := [.wr 0x010 (.lit (encode i))]

/-- `WAIT`, standing at line `here`, polling into variable `t`. -/
def wait (here t : Nat) : List HostLine := [.rd 0x014 t, .bit t 0 here]

/-- `LDREG name, v`, for the register at offset `off`. -/
def ldReg (off : BusAddr) (v : Word) : List HostLine := [.wr off (.lit v)]

/-- Byte `4k + j` of `bs` placed at `off`, if `bs` covers it. -/
def coveredByte (off : Nat) (bs : List Byte) (k j : Nat) : Option Byte :=
  if off ≤ 4 * k + j then bs[4 * k + j - off]? else none

/-- The bus word of the covered bytes of word `k`, placed by R66, the others 0. -/
def coveredWord (off : Nat) (bs : List Byte) (k : Nat) : Word :=
  BitVec.ofNat 32 (((List.range 4).map fun j => ((coveredByte off bs k j).getD 0).toNat * 256 ^ j).sum)

/-- The bits of word `k` that `bs` at `off` does not cover. -/
def uncoveredMask (off : Nat) (bs : List Byte) (k : Nat) : Word :=
  BitVec.ofNat 32 (((List.range 4).map fun j => (if (coveredByte off bs k j).isSome then 0 else 255) * 256 ^ j).sum)

/-- `LDBUF off, bs` for one word: a partly covered word is read first, into variable `t`, to preserve its other
bytes. -/
def ldBufWord (off : Nat) (bs : List Byte) (t k : Nat) : List HostLine :=
  if uncoveredMask off bs k = 0 then [.wr (bufAddr k) (.lit (coveredWord off bs k))]
  else [.rd (bufAddr k) t, .wr (bufAddr k) (.patched t (uncoveredMask off bs k) (coveredWord off bs k))]

/-- `LDBUF off, bs`: one `WR` per word that covers a byte. -/
def ldBuf (off : Nat) (bs : List Byte) (t : Nat) : List HostLine :=
  ((List.range (if bs = [] then 0 else (off + bs.length + 3) / 4 - off / 4)).map
    fun j => ldBufWord off bs t (off / 4 + j)).flatten

end Sys2Proof.Machine
end

