-- ==== Sys2Proof/Safety.lean ====
section
/-! DEFINITION. The terms the claims use: the invariant every step keeps, the command registers a host access cannot
reach while busy, keys, and runs of turns. -/

namespace Sys2Proof.Machine

/-- What holds in every state a run reaches, for every legal build. -/
structure State.Inv (s : State) : Prop where
  /-- The build is one the spec allows (R7, R10). -/
  cfgLegal : s.cfg.wf = true
  /-- A big register holds `0 <= v < 2^W` (R13, R25). -/
  bigInRange : ∀ r, s.big r < 2 ^ s.cfg.keyBits
  /-- The buffer's list is in canonical form (log 5). -/
  memWf : s.mem.wf = true
  /-- No byte outside `[0, BUF_BYTES)` is written (R41, R165). -/
  memBelow : s.mem.below s.cfg.bufBytes = true
  /-- OUTLEN counts bytes of the buffer (R38). -/
  outlenInBuf : s.outlen.toNat ≤ s.cfg.bufBytes
  /-- No block is ever skipped (R172). -/
  failcntZero : s.failcnt = 0
  /-- `ENC_OVERFLOW` is never reported (R168, R201). -/
  noEncOverflow : s.errCode ≠ .encOverflow
  /-- A failed command left its code (R97, R203). -/
  errHasCode : s.err = true → s.errCode ≠ .noError
  /-- While a command is in flight DONE, ERR and ERRCODE are clear (R30, R95). -/
  busyClear : s.phase = .busy → s.done = false ∧ s.err = false ∧ s.errCode = .noError
  /-- A zero Bézout coefficient has sign 0 (R127). -/
  noNegativeZero : (s.xneg = true → s.regX ≠ 0) ∧ (s.yneg = true → s.regY ≠ 0)
  /-- While reset is asserted every register holds its reset value (R230). -/
  heldInReset : s.inReset = true → s.resetRegs = s

/-- A turn that is a host access: a read or a write (R242). -/
def Turn.isAccess : Turn → Bool
  | .read _ => true
  | .write _ _ => true
  | .reset _ => false
  | .engine => false

/-- What a command's outcome is read from: the results and the error the host sees, apart from what the host itself
may change while the command is in flight (CTRL, the W1C bits of STATUS other than those Complete sets) and from the
model's own fields. -/
structure Results where
  regA : Nat
  regE : Nat
  regM : Nat
  regR : Nat
  regX : Nat
  regY : Nat
  cmd : Word
  src : Word
  dst : Word
  len : Word
  outlen : Word
  failcnt : Word
  xneg : Bool
  yneg : Bool
  mem : Memory
  done : Bool
  err : Bool
  errCode : ErrCode
  phase : Phase
  deriving DecidableEq, Repr

/-- The results a state holds. -/
def State.results (s : State) : Results where
  regA := s.regA
  regE := s.regE
  regM := s.regM
  regR := s.regR
  regX := s.regX
  regY := s.regY
  cmd := s.cmd
  src := s.src
  dst := s.dst
  len := s.len
  outlen := s.outlen
  failcnt := s.failcnt
  xneg := s.xneg
  yneg := s.yneg
  mem := s.mem
  done := s.done
  err := s.err
  errCode := s.errCode
  phase := s.phase

/-- A valid two-prime RSA key (R147): `n = p*q` for distinct primes and `e*d ≡ 1 (mod (p-1)(q-1))`. -/
def validKey (n e d : Nat) : Prop :=
  ∃ p q : Nat, p.Prime ∧ q.Prime ∧ p ≠ q ∧ n = p * q ∧ e * d ≡ 1 [MOD (p - 1) * (q - 1)]

/-- The offset of the bus word an address names: bits 1:0 are ignored (R61). -/
def wordOffset (addr : BusAddr) : Nat := addr.toNat - addr.toNat % 4

/-- The offset of word `j` of a big register (R64). -/
def bigOffset (r : BigReg) (j : Nat) : Nat := 0x01000 + 0x200 * bigRegIndex r + 4 * j

/-- The ranges `[a, a + la)` and `[b, b + lb)` share a byte (R166). -/
def shareByte (a la b lb : Nat) : Prop := ∃ i, a ≤ i ∧ i < a + la ∧ b ≤ i ∧ i < b + lb

/-- The engine has the turn: it is its turn in the schedule, or the schedule is over. -/
def State.enginesTurn (s : State) : Prop := s.schedule = [] ∨ ∃ rest, s.schedule = .engine :: rest

/-- The next step is the Complete step of this command. -/
def State.completes (s : State) (i : Instr) : Prop :=
  s.enginesTurn ∧ s.phase = .busy ∧ decode s.cmd = .ok i

/-- The next turn drives the reset input to another level: it asserts a released reset or releases an asserted one. -/
def State.resets (s : State) : Prop := ∃ rest, s.schedule = .reset (!s.inReset) :: rest

/-- The next turn is a host write that reset does not mask, of `v` to the word at offset `off`. -/
def State.writesTo (s : State) (off : Nat) (v : Word) : Prop :=
  s.inReset = false ∧ ∃ addr rest, s.schedule = .write addr v :: rest ∧ wordOffset addr = off

/-- The state an outcome goes on in, if it goes on. -/
def nextOf (o : Host.Outcome State Fault Refusal) : Option State :=
  match o with
  | .next t => some t
  | .fault _ => none
  | .refused _ => none

end Sys2Proof.Machine
end

