-- ==== Sys2Proof/Certificates/Slice0/Obligations.lean ====
section
/-! DEFINITION. The statements for the provers. Each docstring names the rules of spec/ it formalises. -/

open Sys2Proof Sys2Proof.Machine

/-! ### Command words -/

/-- R92: encoding a command and decoding the word gives the command back, for every well-formed command. -/
def Obligations.EncodeDecodeRoundTrip : Prop := ∀ i : Instr, i.wf = true → decode (encode i) = .ok i

/-- R94, R92: a word decodes to a command exactly when it is that command's word, and is illegal exactly when a bit of
31:4 is set or `OP` is not `0x1` to `0x6`. -/
def Obligations.DecodeAcceptsExactlyTheTable : Prop :=
  (∀ (w : Word) (i : Instr), decode w = .ok i ↔ w = encode i) ∧
  ∀ w : Word, (∃ why, decode w = .error why) ↔
    bits w.toNat 31 4 ≠ 0 ∨ bits w.toNat 3 0 = 0 ∨ 7 ≤ bits w.toNat 3 0

/-- R92, R93 on single words: the six words of the opcode map, and words with `OP = 0`, `OP = 7`, `STRICT` set and a
bit of `RSV` set. -/
def Obligations.TableWordsDecode : Prop :=
  decode 0x00000001#32 = .ok .gcd ∧ decode 0x00000002#32 = .ok .xgcd ∧ decode 0x00000003#32 = .ok .modinv ∧
  decode 0x00000004#32 = .ok .modexp ∧ decode 0x00000005#32 = .ok .encrypt ∧ decode 0x00000006#32 = .ok .decrypt ∧
  decode 0x00000000#32 = .error .opcode ∧ decode 0x00000007#32 = .error .opcode ∧
  decode 0x00000014#32 = .error .strictMode ∧ decode 0x80000004#32 = .error .reservedBits

/-! ### Issue and completion -/

/-- R97, R233: when a command is in flight and the engine has the turn, a step is `exec` of the command that CMD decodes
to, on the state with that turn taken off the schedule; when the engine is idle and has the turn, a step changes nothing
but the schedule, and nothing at all where that is over. (The schedule is the model's choice, log 2 and log 3.) -/
def Obligations.StepRunsDecodedCommand : Prop :=
  (∀ (s : State) (i : Instr), s.phase = .busy → decode s.cmd = .ok i →
    (∀ rest, s.schedule = .engine :: rest → step s = exec i { s with schedule := rest }) ∧
    (s.schedule = [] → step s = exec i s)) ∧
  ∀ s : State, s.phase = .idle →
    (∀ rest, s.schedule = .engine :: rest → step s = .next { s with schedule := rest }) ∧
    (s.schedule = [] → step s = .next s)

/-- R95: a host write to CMD while idle is accepted, whatever the word, and does exactly the writes of R95; while busy
it is not accepted, and only WERR changes. -/
def Obligations.CmdWriteIsAcceptedOnlyWhileIdle : Prop :=
  ∀ (s : State) (addr : BusAddr) (w : Word) (rest : List Turn),
    s.schedule = .write addr w :: rest → wordOffset addr = 0x010 → s.inReset = false →
    (s.phase = .idle → step s = .next { s with
      schedule := rest, cmd := w, done := false, err := false, errCode := .noError, phase := .busy }) ∧
    (s.phase = .busy → step s = .next { s with schedule := rest, werr := true })

/-- R93: every word outside the opcode map, written to CMD while idle, is accepted and then completes with
`ILLEGAL_CMD` and no other effect. -/
def Obligations.IllegalWordEndsWithIllegalCmd : Prop :=
  ∀ (s : State) (addr : BusAddr) (w : Word) (rest : List Turn),
    s.schedule = .write addr w :: .engine :: rest → wordOffset addr = 0x010 → s.inReset = false → s.phase = .idle →
    (bits w.toNat 31 4 ≠ 0 ∨ bits w.toNat 3 0 = 0 ∨ 7 ≤ bits w.toNat 3 0) →
    Sys2Proof.core.run 2 s = .next { s with
      schedule := rest, cmd := w, err := true, errCode := .illegalCmd, done := true }

/-- R97, R200, R202: every command completes: BUSY clears, DONE sets, CMD keeps the word; a failing one changes
nothing but STATUS and `phase`, a successful one leaves ERR and ERRCODE as acceptance left them. -/
def Obligations.CompletionEndsTheCommand : Prop :=
  ∀ (i : Instr) (s : State), ∃ t, exec i s = .next t ∧ t.phase = .idle ∧ t.done = true ∧ t.cmd = s.cmd ∧
    ((∃ c, c ≠ .noError ∧ t = { s with err := true, errCode := c, done := true, phase := .idle }) ∨
      (t.err = s.err ∧ t.errCode = s.errCode))

/-- R205: a command reports the first code that applies, in the order of the rule's table. `raiseError` is the failing
completion that `CompletionEndsTheCommand` describes. -/
def Obligations.CommandsReportTheFirstError : Prop :=
  ∀ s : State,
    ((∃ why, decode s.cmd = .error why) → completeCommand s = .next (s.raiseError .illegalCmd)) ∧
    (∀ t, exec .gcd s = .next t ∨ exec .xgcd s = .next t → t.err = s.err ∧ t.errCode = s.errCode) ∧
    (Nat.gcd s.regA s.regM ≠ 1 → exec .modinv s = .next (s.raiseError .noInverse)) ∧
    (Nat.gcd s.regA s.regM = 1 → s.regM = 0 → exec .modinv s = .next (s.raiseError .modZero)) ∧
    (s.regM = 0 → exec .modexp s = .next (s.raiseError .modZero)) ∧
    (s.regM = 0 → exec .encrypt s = .next (s.raiseError .modZero)) ∧
    (s.regM ≠ 0 →
      (s.cfg.bufBytes < s.src.toNat + s.len.toNat ∨ s.cfg.bufBytes < s.dst.toNat + s.encLen) →
      exec .encrypt s = .next (s.raiseError .range)) ∧
    (s.regM ≠ 0 → s.src.toNat + s.len.toNat ≤ s.cfg.bufBytes → s.dst.toNat + s.encLen ≤ s.cfg.bufBytes →
      shareByte s.src.toNat s.len.toNat s.dst.toNat s.encLen →
      exec .encrypt s = .next (s.raiseError .overlap)) ∧
    (s.len.toNat % keyBytes s.cfg ≠ 0 → exec .decrypt s = .next (s.raiseError .malformed)) ∧
    (s.len.toNat % keyBytes s.cfg = 0 → s.regM = 0 → exec .decrypt s = .next (s.raiseError .modZero)) ∧
    (s.len.toNat % keyBytes s.cfg = 0 → s.regM ≠ 0 →
      (s.cfg.bufBytes < s.src.toNat + s.len.toNat ∨ s.cfg.bufBytes < s.dst.toNat + s.len.toNat) →
      exec .decrypt s = .next (s.raiseError .range)) ∧
    (s.len.toNat % keyBytes s.cfg = 0 → s.regM ≠ 0 → s.src.toNat + s.len.toNat ≤ s.cfg.bufBytes →
      s.dst.toNat + s.len.toNat ≤ s.cfg.bufBytes →
      shareByte s.src.toNat s.len.toNat s.dst.toNat s.len.toNat →
      exec .decrypt s = .next (s.raiseError .overlap))

/-! ### The extended_gcd_unit -/

/-- R126, R120: GCD, command word 1, answers, for any operands, the state with `R` the greatest common divisor of `A` and `M` and
nothing else but the common completion changed. -/
def Obligations.GcdCompletes : Prop :=
  encode .gcd = 0x00000001#32 ∧
  ∀ s : State, exec .gcd s =
    .next { s with regR := Nat.gcd s.regA s.regM, done := true, phase := .idle }

/-- R121: `extEuclid` obeys the base case and the recurrence, with no counter of levels in them. -/
def Obligations.ExtEuclidFollowsTheRecursion : Prop :=
  (∀ a : Nat, extEuclid a 0 = { x := 1, y := 0, g := a }) ∧
  ∀ a m : Nat, 0 < m →
    extEuclid a m =
      { x := (extEuclid m (a % m)).y
        y := (extEuclid m (a % m)).x - ((a / m : Nat) : Int) * (extEuclid m (a % m)).y
        g := (extEuclid m (a % m)).g }

/-- R122: the iteration returns the triple of the recursion for all operands. -/
def Obligations.IterationEqualsRecursion : Prop := ∀ a m : Nat, extEuclidIter a m = extEuclid a m

/-- R123: the triple is a Bézout triple of the greatest common divisor. -/
def Obligations.BezoutIdentity : Prop :=
  ∀ a m : Nat, (a : Int) * (extEuclid a m).x + (m : Int) * (extEuclid a m).y = ((extEuclid a m).g : Int) ∧
    (extEuclid a m).g = Sys2Proof.Machine.gcd a m

/-- R124: the coefficients are bounded, so both magnitudes of `W`-bit operands fit a big register. -/
def Obligations.BezoutMagnitudesFit : Prop :=
  ∀ a m : Nat, (extEuclid a m).x.natAbs ≤ max m 1 ∧ (extEuclid a m).y.natAbs ≤ max a 1 ∧
    ∀ w, 16 ≤ w → a < 2 ^ w → m < 2 ^ w →
      (extEuclid a m).x.natAbs < 2 ^ w ∧ (extEuclid a m).y.natAbs < 2 ^ w

/-- R127: XGCD, command word 2, answers, for any operands, the state with the triple of R121 as sign and magnitude; the host recovers
`x` and `y` from them, zero has sign 0, and bits 31:2 of XSIGN are 0. -/
def Obligations.XgcdCompletes : Prop :=
  encode .xgcd = 0x00000002#32 ∧
  ∀ s : State, ∃ t,
    exec .xgcd s = .next t ∧
    t = { s with
      regR := Nat.gcd s.regA s.regM
      regX := (extEuclid s.regA s.regM).x.natAbs, regY := (extEuclid s.regA s.regM).y.natAbs
      xneg := decide ((extEuclid s.regA s.regM).x < 0), yneg := decide ((extEuclid s.regA s.regM).y < 0)
      done := true, phase := .idle } ∧
    (if t.xneg then -(t.regX : Int) else t.regX) = (extEuclid s.regA s.regM).x ∧
    (if t.yneg then -(t.regY : Int) else t.regY) = (extEuclid s.regA s.regM).y ∧
    (s.regA : Int) * (if t.xneg then -(t.regX : Int) else t.regX) +
      (s.regM : Int) * (if t.yneg then -(t.regY : Int) else t.regY) = (t.regR : Int) ∧
    (t.regX = 0 → t.xneg = false) ∧ (t.regY = 0 → t.yneg = false) ∧ bits t.xsignWord.toNat 31 2 = 0

/-- R128: for coprime operands and a modulus that is not 0, MODINV, command word 3, answers the state with `R` the
inverse in `[0, M)`, 0 for `M = 1`; it ends in `NO_INVERSE` where the operands are not coprime, else in `MOD_ZERO` where
the modulus is 0. Nothing else but the common completion changes. -/
def Obligations.ModinvCompletes : Prop :=
  encode .modinv = 0x00000003#32 ∧
  ∀ s : State,
    (Nat.gcd s.regA s.regM = 1 → s.regM ≠ 0 →
      ∃ v, exec .modinv s = .next { s with regR := v, done := true, phase := .idle } ∧
        v < s.regM ∧ s.regA * v % s.regM = 1 % s.regM ∧
        (v : Int) = (extEuclid s.regA s.regM).x % (s.regM : Int)) ∧
    (Nat.gcd s.regA s.regM ≠ 1 → exec .modinv s = .next { s with
      err := true, errCode := .noInverse, done := true, phase := .idle }) ∧
    (Nat.gcd s.regA s.regM = 1 → s.regM = 0 → exec .modinv s = .next { s with
      err := true, errCode := .modZero, done := true, phase := .idle })

/-! ### The modular_exponentiation_engine unit -/

/-- R145, R141, R142: MODEXP, command word 4, answers `A^E mod M`, and 1 for `E = 0` even where `M = 1`; a zero modulus ends in
`MOD_ZERO`. Nothing else but the common completion changes. -/
def Obligations.ModexpCompletes : Prop :=
  encode .modexp = 0x00000004#32 ∧
  ∀ s : State,
    (s.regM ≠ 0 → exec .modexp s = .next { s with
      regR := if s.regE = 0 then 1 else s.regA ^ s.regE % s.regM, done := true, phase := .idle }) ∧
    (s.regM = 0 → exec .modexp s = .next { s with
      err := true, errCode := .modZero, done := true, phase := .idle })

/-- Frame of GCD, XGCD, MODINV and MODEXP (R23, R26, R126 to R128, R145): operands, block registers, CTRL, CMD, WERR
and every byte of the buffer stay; `X`, `Y` and XSIGN stay except for XGCD; a failing command leaves `R`. -/
def Obligations.ArithmeticCommandsFrame : Prop :=
  ∀ (i : Instr) (s t : State), i = .gcd ∨ i = .xgcd ∨ i = .modinv ∨ i = .modexp → exec i s = .next t →
    t.regA = s.regA ∧ t.regE = s.regE ∧ t.regM = s.regM ∧
    t.src = s.src ∧ t.dst = s.dst ∧ t.len = s.len ∧ t.outlen = s.outlen ∧ t.failcnt = s.failcnt ∧
    t.ie = s.ie ∧ t.cmd = s.cmd ∧ t.werr = s.werr ∧ (∀ a, t.mem.readByte a = s.mem.readByte a) ∧
    (i ≠ .xgcd → t.regX = s.regX ∧ t.regY = s.regY ∧ t.xneg = s.xneg ∧ t.yneg = s.yneg) ∧
    (t.err ≠ s.err → t.regR = s.regR) ∧
    t.inReset = s.inReset ∧ t.cfg = s.cfg ∧ t.schedule = s.schedule ∧ t.rdata = s.rdata ∧ t.draws = s.draws

/-! ### The block_cipher_orchestrator -/

/-- R161, R160: `IntToBe` fails exactly where the value does not fit, and otherwise gives `w` big-endian bytes that
`BeToInt` reads back. -/
def Obligations.BigEndianRoundTrip : Prop :=
  ∀ v w : Nat,
    (2 ^ (8 * w) ≤ v → intToBe v w = .error .encOverflow) ∧
    (v < 2 ^ (8 * w) → ∃ bs, intToBe v w = .ok bs ∧ bs.length = w ∧ beToInt bs = v ∧
      ∀ i, i < w → bs[i]? = some (BitVec.ofNat 8 (v / 256 ^ (w - 1 - i) % 256)))

/-- R162: the blocks are contiguous, none is empty, only the last may be short, and together they are the message. -/
def Obligations.BlocksCoverTheMessage : Prop :=
  ∀ L s : Nat, 1 ≤ s →
    (∀ i off n : Nat, (blocks L s)[i]? = some (off, n) →
      off = i * s ∧ 1 ≤ n ∧ n ≤ s ∧ off + n ≤ L ∧ (i + 1 < (blocks L s).length → n = s) ∧
        (i + 1 = (blocks L s).length → off + n = L)) ∧
    ((blocks L s).map Prod.snd).sum = L ∧ (blocks 0 s) = []

/-- R163: the leading zero bytes, all of them and nothing else, are removed. -/
def Obligations.StripRemovesLeadingZeros : Prop :=
  ∀ bs : List Byte, ∃ j, stripLeadingZeros bs = bs.drop j ∧ j ≤ bs.length ∧
    (∀ i, i < j → bs[i]? = some 0) ∧ bs[j]? ≠ some 0

/-- R167: with its checks passed, ENCRYPT answers the state in which every plaintext block's exponentiated integer
stands as `K` big-endian bytes in the destination, in index order, OUTLEN counts them, FAILCNT is 0, and every other
byte of the buffer and all other state are unchanged but for the common completion. -/
def Obligations.EncryptCompletes : Prop :=
  ∀ s : State, s.cfg.wf = true → s.regM ≠ 0 → s.regM < 2 ^ s.cfg.keyBits →
    s.src.toNat + s.len.toNat ≤ s.cfg.bufBytes → s.dst.toNat + s.encLen ≤ s.cfg.bufBytes →
    ¬ shareByte s.src.toNat s.len.toNat s.dst.toNat s.encLen →
    ∃ m : Memory,
      exec .encrypt s = .next { s with
        mem := m, outlen := BitVec.ofNat 32 s.encLen, failcnt := 0, done := true, phase := .idle } ∧
      (BitVec.ofNat 32 s.encLen).toNat = s.encLen ∧
      (∀ i off n : Nat, (blocks s.len.toNat (keyBytes s.cfg - 1))[i]? = some (off, n) →
        intToBe (modExp (beToInt (s.mem.readBytes (s.src.toNat + off) n)) s.regE s.regM) (keyBytes s.cfg) =
          .ok (m.readBytes (s.dst.toNat + i * keyBytes s.cfg) (keyBytes s.cfg))) ∧
      (∀ a, a < s.dst.toNat ∨ s.dst.toNat + s.encLen ≤ a → m.readByte a = s.mem.readByte a)

/-- R171, R172: with its checks passed, DECRYPT answers the state in which the stripped decrypted blocks stand
concatenated at the destination, OUTLEN counts them, FAILCNT is 0, and every other byte of the buffer and all other
state are unchanged but for the common completion. -/
def Obligations.DecryptCompletes : Prop :=
  ∀ s : State, s.cfg.wf = true → s.len.toNat % keyBytes s.cfg = 0 → s.regM ≠ 0 → s.regM < 2 ^ s.cfg.keyBits →
    s.src.toNat + s.len.toNat ≤ s.cfg.bufBytes → s.dst.toNat + s.len.toNat ≤ s.cfg.bufBytes →
    ¬ shareByte s.src.toNat s.len.toNat s.dst.toNat s.len.toNat →
    ∃ (m : Memory) (out : List Byte),
      out = ((List.range (s.len.toNat / keyBytes s.cfg)).map fun i =>
        stripLeadingZeros (beBytes (modExp
          (beToInt (s.mem.readBytes (s.src.toNat + i * keyBytes s.cfg) (keyBytes s.cfg))) s.regE s.regM)
          (keyBytes s.cfg))).flatten ∧
      exec .decrypt s = .next { s with
        mem := m, outlen := BitVec.ofNat 32 out.length, failcnt := 0, done := true, phase := .idle } ∧
      (BitVec.ofNat 32 out.length).toNat = out.length ∧ out.length ≤ s.len.toNat ∧
      m.readBytes s.dst.toNat out.length = out ∧
      (∀ a, a < s.dst.toNat ∨ s.dst.toNat + out.length ≤ a → m.readByte a = s.mem.readByte a)

/-- R170: with `LEN = 0` and the checks passed, ENCRYPT and DECRYPT write no byte and set OUTLEN and FAILCNT to 0. -/
def Obligations.EmptyMessages : Prop :=
  ∀ (i : Instr) (s : State), i = .encrypt ∨ i = .decrypt → s.len = 0 → s.regM ≠ 0 →
    s.src.toNat ≤ s.cfg.bufBytes → s.dst.toNat ≤ s.cfg.bufBytes →
    exec i s = .next { s with outlen := 0, failcnt := 0, done := true, phase := .idle }

/-- Frame of ENCRYPT and DECRYPT (R23, R26, R167, R171): all registers but OUTLEN, FAILCNT and STATUS stay, every byte
of the buffer outside the destination range the command computes stays, and a failing command writes nothing. -/
def Obligations.BlockCommandsFrame : Prop :=
  ∀ (i : Instr) (s t : State), i = .encrypt ∨ i = .decrypt → exec i s = .next t →
    t.regA = s.regA ∧ t.regE = s.regE ∧ t.regM = s.regM ∧ t.regR = s.regR ∧ t.regX = s.regX ∧ t.regY = s.regY ∧
    t.xneg = s.xneg ∧ t.yneg = s.yneg ∧ t.src = s.src ∧ t.dst = s.dst ∧ t.len = s.len ∧
    t.ie = s.ie ∧ t.cmd = s.cmd ∧ t.werr = s.werr ∧
    (∀ a, (i = .encrypt → a < s.dst.toNat ∨ s.dst.toNat + s.encLen ≤ a) →
      (i = .decrypt → a < s.dst.toNat ∨ s.dst.toNat + s.len.toNat ≤ a) →
      t.mem.readByte a = s.mem.readByte a) ∧
    (t.err ≠ s.err → t.mem = s.mem ∧ t.outlen = s.outlen ∧ t.failcnt = s.failcnt) ∧
    t.inReset = s.inReset ∧ t.cfg = s.cfg ∧ t.schedule = s.schedule ∧ t.rdata = s.rdata ∧ t.draws = s.draws

/-- R174: a plaintext block below the modulus, encrypted and decrypted with a valid key, comes back without its leading
zero bytes; it comes back whole exactly when it does not begin with one. -/
def Obligations.ZeroStrippingLoss : Prop :=
  ∀ (k n e d : Nat) (bs : List Byte), validKey n e d → n < 2 ^ (8 * k) → 1 ≤ bs.length → bs.length ≤ k - 1 →
    beToInt bs < n →
    stripLeadingZeros (beBytes (modExp (modExp (beToInt bs) e n) d n) k) = stripLeadingZeros bs ∧
    (stripLeadingZeros bs = bs ↔ bs[0]? ≠ some 0) ∧
    ((∀ b ∈ bs, b = 0) → stripLeadingZeros bs = [])

/-- R176: the round trip. `s` encrypts the message at its source; `u` is any later state that holds the ciphertext at
its own source, LEN set to the ciphertext's length, the same modulus and the private exponent. If the modulus is
well-formed, the key valid, no plaintext block begins with a zero byte, and both commands succeed, then DECRYPT writes
the message. -/
def Obligations.RoundTrip : Prop :=
  ∀ (s t u v : State), s.cfg.wf = true → modulusWf s.cfg s.regM = true → validKey s.regM s.regE u.regE →
    (∀ i off n : Nat, (blocks s.len.toNat (keyBytes s.cfg - 1))[i]? = some (off, n) →
      s.mem.readByte (s.src.toNat + off) ≠ 0) →
    s.err = false → exec .encrypt s = .next t → t.err = false →
    u.cfg = s.cfg → u.regM = s.regM → u.len = t.outlen →
    u.mem.readBytes u.src.toNat t.outlen.toNat = t.mem.readBytes s.dst.toNat t.outlen.toNat →
    u.err = false → exec .decrypt u = .next v → v.err = false →
    v.outlen = s.len ∧
      v.mem.readBytes u.dst.toNat s.len.toNat = s.mem.readBytes s.src.toNat s.len.toNat

/-! ### The whole machine -/

/-- The invariant is kept by every step of every state that meets it, whatever turns the host takes. -/
def Obligations.EveryStepKeepsTheInvariant : Prop :=
  ∀ s t : State, s.Inv → step s = .next t → t.Inv

/-- The state after reset meets the invariant. -/
def Obligations.ResetStateMeetsTheInvariant : Prop := State.reset.Inv

/-- R44, R233: the values after reset that the spec gives. (`BUF` lists nothing: what its bytes read as is free, log
5. The parameters are the spec's default build.) -/
def Obligations.ResetStateHoldsTheSpecsValues : Prop :=
  (∀ r, State.reset.big r = 0) ∧ State.reset.ctrlWord = 0 ∧ State.reset.cmd = 0 ∧ State.reset.statusWord = 0 ∧
  State.reset.src = 0 ∧ State.reset.dst = 0 ∧ State.reset.len = 0 ∧ State.reset.outlen = 0 ∧
  State.reset.failcnt = 0 ∧ State.reset.xsignWord = 0 ∧ State.reset.phase = .idle ∧ State.reset.irq = false

/-- R242: no access and no command is refused or faults; every step and every command goes on. -/
def Obligations.EveryStepGoesOn : Prop :=
  (∀ s : State, ∃ t, step s = .next t) ∧ ∀ (i : Instr) (s : State), ∃ t, exec i s = .next t

/-- R23: `A`, `E` and `M` change only by an idle host write to one of their words, or by a turn that changes the level of
reset. -/
def Obligations.OperandsChangeOnlyByHostWrite : Prop :=
  ∀ (s t : State) (r : BigReg), r = .A ∨ r = .E ∨ r = .M → step s = .next t → t.big r ≠ s.big r →
    s.resets ∨ (s.phase = .idle ∧ ∃ j v, j < numWords s.cfg ∧ s.writesTo (bigOffset r j) v)

/-- R24, R26, R31, R38, R39: the result registers change only by the commands that write them, or by a turn that
changes the level of reset. -/
def Obligations.ResultsChangeOnlyByCommands : Prop :=
  ∀ s t : State, step s = .next t → ¬ s.resets →
    (t.regR ≠ s.regR → s.completes .gcd ∨ s.completes .xgcd ∨ s.completes .modinv ∨ s.completes .modexp) ∧
    (t.regX ≠ s.regX ∨ t.regY ≠ s.regY ∨ t.xneg ≠ s.xneg ∨ t.yneg ≠ s.yneg → s.completes .xgcd) ∧
    (t.outlen ≠ s.outlen ∨ t.failcnt ≠ s.failcnt → s.completes .encrypt ∨ s.completes .decrypt)

/-- R41, R66, R167, R171, R230, R231: a byte of the buffer changes only by an idle host write to its word, by ENCRYPT
or DECRYPT inside the destination range, or by a reset that abandons one of them, inside that range (log 6). -/
def Obligations.BufferChangesOnlyByItsWriters : Prop :=
  ∀ (s t : State) (a : Nat), step s = .next t → t.mem.readByte a ≠ s.mem.readByte a →
    (s.phase = .idle ∧ ∃ v, s.writesTo (0x10000 + 4 * (a / 4)) v) ∨
    (s.completes .encrypt ∧ s.dst.toNat ≤ a ∧ a < s.dst.toNat + s.encLen) ∨
    (s.completes .decrypt ∧ s.dst.toNat ≤ a ∧ a < s.dst.toNat + s.len.toNat) ∨
    (s.resets ∧ s.phase = .busy ∧ a < s.cfg.bufBytes ∧ s.dst.toNat ≤ a ∧
      ((decode s.cmd = .ok .encrypt ∧ a < s.dst.toNat + s.encLen) ∨
        (decode s.cmd = .ok .decrypt ∧ a < s.dst.toNat + s.len.toNat)))

/-- R203: ERRCODE changes only by acceptance, completion or reset; ERR, once 1, clears only by a host write of 1 to it,
by acceptance, or by reset. -/
def Obligations.ErrorInformationIsKept : Prop :=
  ∀ s t : State, step s = .next t → ¬ s.resets →
    (t.errCode ≠ s.errCode →
      (s.enginesTurn ∧ s.phase = .busy) ∨ (s.phase = .idle ∧ ∃ w, s.writesTo 0x010 w)) ∧
    (s.err = true → t.err = false →
      (∃ v, s.writesTo 0x014 v ∧ v.getLsbD 2 = true) ∨ (s.phase = .idle ∧ ∃ w, s.writesTo 0x010 w))

/-- R206, R236: WERR sets only by a host write made while busy, and clears only by a host write of 1 to it or reset. -/
def Obligations.WerrReportsDroppedWrites : Prop :=
  ∀ s t : State, step s = .next t → ¬ s.resets →
    (s.werr = false → t.werr = true → s.phase = .busy ∧ ∃ off v, s.writesTo off v ∧
      (off = 0x010 ∨ off = 0x018 ∨ off = 0x01C ∨ off = 0x020 ∨ (0x01000 ≤ off ∧ off < 0x01C00) ∨ 0x10000 ≤ off)) ∧
    (s.werr = true → t.werr = false → ∃ v, s.writesTo 0x014 v ∧ v.getLsbD 3 = true)

/-- R96, R80: whatever the host reads and writes while a command is in flight, the command ends with the registers,
buffer and error it would have ended with at once. -/
def Obligations.OperandSnapshot : Prop :=
  ∀ (s : State) (ts rest : List Turn), s.Inv → s.phase = .busy → s.schedule = ts ++ .engine :: rest →
    (∀ x ∈ ts, x.isAccess = true) →
    ∃ t u, Sys2Proof.core.run (ts.length + 1) s = .next t ∧ step { s with schedule := .engine :: rest } = .next u ∧
      t.results = u.results

/-- R96, R80, as a lemma about one step: a host access made while a command is in flight keeps the invariant, the busy
phase and what Complete would leave. -/
def Obligations.AccessKeepsTheOutcome : Prop :=
  ∀ (s : State) (x : Turn) (rest : List Turn), s.Inv → s.phase = .busy → s.schedule = x :: rest → x.isAccess = true →
    ∃ t u v, step s = .next t ∧ t.Inv ∧ t.phase = .busy ∧ t.schedule = rest ∧
      completeCommand s = .next u ∧ completeCommand t = .next v ∧ v.results = u.results

/-- R98, R243: an accepted command ends, after at most the host's remaining turns, unless reset abandons it. (That the
engine has the turn once the schedule is over is the model's form of weak fairness, log 2, log 12.) -/
def Obligations.AcceptedCommandCompletes : Prop :=
  ∀ s : State, s.phase = .busy → (∀ x ∈ s.schedule, x = .engine ∨ x.isAccess = true) →
    ∃ k t, k ≤ s.schedule.length + 1 ∧ Sys2Proof.core.run k s = .next t ∧ t.phase = .idle ∧ t.done = true

/-! ### The bus -/

/-- R236: the full effect of a host write while busy. Dropped writes change nothing but WERR; CTRL and STATUS writes
take effect; every other write is ignored. -/
def Obligations.BusyWritesAreDropped : Prop :=
  ∀ (s : State) (addr : BusAddr) (v : Word) (rest : List Turn),
    s.schedule = .write addr v :: rest → s.inReset = false → s.phase = .busy →
    step s = .next (
      if wordOffset addr = 0x010 ∨ wordOffset addr = 0x018 ∨ wordOffset addr = 0x01C ∨ wordOffset addr = 0x020 ∨
          (0x01000 ≤ wordOffset addr ∧ wordOffset addr < 0x01C00) ∨ 0x10000 ≤ wordOffset addr then
        { s with schedule := rest, werr := true }
      else if wordOffset addr = 0x00C then { s with schedule := rest, ie := v.getLsbD 0 }
      else if wordOffset addr = 0x014 then
        { s with
          schedule := rest
          done := s.done && !v.getLsbD 1
          err := s.err && !v.getLsbD 2
          werr := s.werr && !v.getLsbD 3 }
      else { s with schedule := rest })

/-- R235: a host read while busy. Of the result registers, XSIGN, OUTLEN, FAILCNT and the buffer it answers a fresh
free value, a different draw each time, and this holds for every value of it; STATUS reads with BUSY 1, and every
other location reads what it reads while idle. -/
def Obligations.BusyReads : Prop :=
  ∀ (s : State) (addr : BusAddr) (rest : List Turn),
    s.schedule = .read addr :: rest → s.inReset = false → s.phase = .busy →
    step s = .next (
      if (0x01600 ≤ wordOffset addr ∧ wordOffset addr < 0x01C00) ∨ wordOffset addr = 0x024 ∨
          wordOffset addr = 0x028 ∨ wordOffset addr = 0x02C ∨
          (0x10000 ≤ wordOffset addr ∧ wordOffset addr - 0x10000 < s.cfg.bufBytes) then
        { s with schedule := rest, rdata := Config.freeWord s.draws, draws := s.draws + 1 }
      else if wordOffset addr = 0x014 then { s with schedule := rest, rdata := s.statusWord }
      else
        { s with schedule := rest, rdata := ({ s with phase := .idle } : State).readLocation (locate addr) })

/-- R63 with R28, R31 to R39, R62, R64, R66: what every offset reads while idle. -/
def Obligations.ReadMapWhileIdle : Prop :=
  ∀ (s : State) (addr : BusAddr) (rest : List Turn),
    s.schedule = .read addr :: rest → s.inReset = false → s.phase = .idle → s.cfg.wf = true →
    ∃ d : Word, step s = .next { s with schedule := rest, rdata := d } ∧
      (wordOffset addr = 0x000 → d = 0x52534131#32) ∧
      (wordOffset addr = 0x004 → d.toNat = s.cfg.keyBits) ∧
      (wordOffset addr = 0x008 → d.toNat = s.cfg.bufBytes) ∧
      (wordOffset addr = 0x00C → d.toNat = s.ie.toNat) ∧
      (wordOffset addr = 0x010 → d = s.cmd) ∧
      (wordOffset addr = 0x014 → d = s.statusWord) ∧
      (wordOffset addr = 0x018 → d = s.src) ∧
      (wordOffset addr = 0x01C → d = s.dst) ∧
      (wordOffset addr = 0x020 → d = s.len) ∧
      (wordOffset addr = 0x024 → d = s.outlen) ∧
      (wordOffset addr = 0x028 → d = s.failcnt) ∧
      (wordOffset addr = 0x02C → d.toNat = s.xneg.toNat + 2 * s.yneg.toNat) ∧
      (0x030 ≤ wordOffset addr → wordOffset addr < 0x01000 → d = 0) ∧
      (∀ r j, j < 128 → wordOffset addr = bigOffset r j →
        d.toNat = if j < numWords s.cfg then s.big r / 2 ^ (32 * j) % 2 ^ 32 else 0) ∧
      (0x01C00 ≤ wordOffset addr → wordOffset addr < 0x10000 → d = 0) ∧
      (∀ k, wordOffset addr = 0x10000 + 4 * k →
        d.toNat = if 4 * k < s.cfg.bufBytes then
          (s.mem.readByte (4 * k + 3)).toNat * 2 ^ 24 + (s.mem.readByte (4 * k + 2)).toNat * 2 ^ 16 +
            (s.mem.readByte (4 * k + 1)).toNat * 2 ^ 8 + (s.mem.readByte (4 * k)).toNat
          else 0)

/-- R72: a read changes nothing the host or a command can see but the answer; while idle a second read of the word
gives the same answer. -/
def Obligations.ReadsHaveNoSideEffect : Prop :=
  ∀ (s : State) (addr : BusAddr) (rest : List Turn),
    (s.schedule = .read addr :: rest → ∃ t, step s = .next t ∧
      t = { s with schedule := rest, rdata := t.rdata, draws := t.draws }) ∧
    (s.schedule = .read addr :: .read addr :: rest → s.phase = .idle → ∃ t u, step s = .next t ∧
      step t = .next u ∧ u.rdata = t.rdata ∧ u.draws = s.draws)

/-- R64, R65: an idle host write to word `j` of `A`, `E` or `M` puts the data's bits below `W` into that word and
changes no other bit and no other state. -/
def Obligations.BigRegisterWordWrite : Prop :=
  ∀ (s : State) (addr : BusAddr) (v : Word) (rest : List Turn) (r : BigReg) (j : Nat),
    s.schedule = .write addr v :: rest → s.inReset = false → s.phase = .idle → s.cfg.wf = true →
    r = .A ∨ r = .E ∨ r = .M → j < numWords s.cfg → wordOffset addr = bigOffset r j →
    s.big r < 2 ^ s.cfg.keyBits →
    ∃ n, step s = .next (({ s with schedule := rest } : State).setBig r n) ∧ n < 2 ^ s.cfg.keyBits ∧
      ∀ b, b < s.cfg.keyBits →
        n.testBit b = if b / 32 = j then v.getLsbD (b % 32) else (s.big r).testBit b

/-- R66: an idle host write to word `k` of the buffer window puts the four data bytes, lowest first, at `4k` to
`4k + 3` and changes no other byte and no other state. -/
def Obligations.BufferWordWrite : Prop :=
  ∀ (s : State) (addr : BusAddr) (v : Word) (rest : List Turn) (k : Nat),
    s.schedule = .write addr v :: rest → s.inReset = false → s.phase = .idle →
    wordOffset addr = 0x10000 + 4 * k → 4 * k < s.cfg.bufBytes →
    ∃ m, step s = .next { s with schedule := rest, mem := m } ∧
      (∀ j, j < 4 → m.readByte (4 * k + j) = BitVec.ofNat 8 (v.toNat / 256 ^ j)) ∧
      (∀ a, a < 4 * k ∨ 4 * k + 4 ≤ a → m.readByte a = s.mem.readByte a)

/-- R64, R66: what the host writes while idle to a word of the buffer, or to a word of `A`, `E` or `M`, it reads back,
but for the data bits at or above `W`, which read 0. -/
def Obligations.WrittenWordsReadBack : Prop :=
  ∀ (s : State) (addr : BusAddr) (v : Word) (rest : List Turn),
    s.schedule = .write addr v :: .read addr :: rest → s.inReset = false → s.phase = .idle → s.cfg.wf = true →
    (∀ k, wordOffset addr = 0x10000 + 4 * k → 4 * k < s.cfg.bufBytes →
      ∃ t, Sys2Proof.core.run 2 s = .next t ∧ t.rdata = v) ∧
    (∀ r j, r = .A ∨ r = .E ∨ r = .M → j < numWords s.cfg → wordOffset addr = bigOffset r j →
      s.big r < 2 ^ s.cfg.keyBits →
      ∃ t, Sys2Proof.core.run 2 s = .next t ∧ t.rdata.toNat = v.toNat % 2 ^ (s.cfg.keyBits - 32 * j))

/-- R62, R24, R31 to R34, R38, R39, R64, R66: the writes that are ignored and never set WERR. The read-only registers
and the reserved offsets ignore them always; the words of `R`, `X`, `Y`, the words `j >= NW` and the buffer words at or
beyond `BUF_BYTES` while idle. -/
def Obligations.IgnoredWrites : Prop :=
  ∀ (s : State) (addr : BusAddr) (v : Word) (rest : List Turn),
    s.schedule = .write addr v :: rest → s.inReset = false →
    (wordOffset addr = 0x000 ∨ wordOffset addr = 0x004 ∨ wordOffset addr = 0x008 ∨ wordOffset addr = 0x024 ∨
      wordOffset addr = 0x028 ∨ wordOffset addr = 0x02C ∨
      (0x030 ≤ wordOffset addr ∧ wordOffset addr < 0x01000) ∨
      (0x01C00 ≤ wordOffset addr ∧ wordOffset addr < 0x10000) ∨
      (s.phase = .idle ∧ 0x01600 ≤ wordOffset addr ∧ wordOffset addr < 0x01C00) ∨
      (s.phase = .idle ∧ ∃ r j, j < 128 ∧ numWords s.cfg ≤ j ∧ wordOffset addr = bigOffset r j) ∨
      (s.phase = .idle ∧ 0x10000 + s.cfg.bufBytes ≤ wordOffset addr)) →
    step s = .next { s with schedule := rest }

/-- R29: a host write to STATUS, idle or busy, clears DONE, ERR, WERR where its bits 1, 2, 3 are 1, and nothing else; a
read of STATUS has no effect but its answer. -/
def Obligations.StatusWriteOneToClear : Prop :=
  ∀ (s : State) (addr : BusAddr) (v : Word) (rest : List Turn), s.inReset = false → wordOffset addr = 0x014 →
    (s.schedule = .write addr v :: rest → step s = .next { s with
      schedule := rest
      done := if v.getLsbD 1 then false else s.done
      err := if v.getLsbD 2 then false else s.err
      werr := if v.getLsbD 3 then false else s.werr }) ∧
    (s.schedule = .read addr :: rest → step s = .next { s with schedule := rest, rdata := s.statusWord })

/-- R35, R37: a host write to CTRL, idle or busy, stores bit 0 and sets no WERR; one to SRC, DST or LEN while idle
stores its data. -/
def Obligations.ControlAndOperandWrites : Prop :=
  ∀ (s : State) (addr : BusAddr) (v : Word) (rest : List Turn),
    s.schedule = .write addr v :: rest → s.inReset = false →
    (wordOffset addr = 0x00C → step s = .next { s with schedule := rest, ie := v.getLsbD 0 }) ∧
    (s.phase = .idle →
      (wordOffset addr = 0x018 → step s = .next { s with schedule := rest, src := v }) ∧
      (wordOffset addr = 0x01C → step s = .next { s with schedule := rest, dst := v }) ∧
      (wordOffset addr = 0x020 → step s = .next { s with schedule := rest, len := v }))

/-- R28, R30, R31, R35, R201: the bits of STATUS, CTRL and XSIGN as words, with the numbers of the error codes; the
reserved bits read 0. -/
def Obligations.StatusLayout : Prop :=
  ∀ s : State,
    (s.statusWord.getLsbD 0 = true ↔ s.phase = .busy) ∧ s.statusWord.getLsbD 1 = s.done ∧
    s.statusWord.getLsbD 2 = s.err ∧ s.statusWord.getLsbD 3 = s.werr ∧ bits s.statusWord.toNat 7 4 = 0 ∧
    bits s.statusWord.toNat 11 8 = errCodeValue s.errCode ∧ bits s.statusWord.toNat 31 12 = 0 ∧
    s.ctrlWord.getLsbD 0 = s.ie ∧ bits s.ctrlWord.toNat 31 1 = 0 ∧
    s.xsignWord.getLsbD 0 = s.xneg ∧ s.xsignWord.getLsbD 1 = s.yneg ∧ bits s.xsignWord.toNat 31 2 = 0 ∧
    (s.errCode = .noError → bits s.statusWord.toNat 11 8 = 0x0) ∧
    (s.errCode = .illegalCmd → bits s.statusWord.toNat 11 8 = 0x1) ∧
    (s.errCode = .noInverse → bits s.statusWord.toNat 11 8 = 0x2) ∧
    (s.errCode = .modZero → bits s.statusWord.toNat 11 8 = 0x3) ∧
    (s.errCode = .malformed → bits s.statusWord.toNat 11 8 = 0x4) ∧
    (s.errCode = .range → bits s.statusWord.toNat 11 8 = 0x5) ∧
    (s.errCode = .overlap → bits s.statusWord.toNat 11 8 = 0x6) ∧
    (s.errCode = .encOverflow → bits s.statusWord.toNat 11 8 = 0x7)

/-- R61: address bits 1:0 are ignored, for reads and for writes. -/
def Obligations.AddressLowBitsIgnored : Prop :=
  ∀ (s : State) (a b : BusAddr) (v : Word) (rest : List Turn), wordOffset a = wordOffset b →
    step { s with schedule := .read a :: rest } = step { s with schedule := .read b :: rest } ∧
    step { s with schedule := .write a v :: rest } = step { s with schedule := .write b v :: rest }

/-- R230, R231: asserting reset puts every register and `phase` at its reset value and keeps the buffer but for the
clipped destination range of an abandoned ENCRYPT or DECRYPT; byte `a` of that range gets free draw number
`s.draws + (a - DST)`, one draw per byte (U5), and no other draw is made (log 6). Releasing reset leaves the reset values.
Driving reset to the level it has changes nothing but the schedule (log 8). -/
def Obligations.ResetRestoresTheRegisters : Prop :=
  ∀ (s : State) (rest : List Turn),
    (s.schedule = .reset true :: rest → s.inReset = false →
      ∃ m n, step s = .next { State.reset with
          mem := m, inReset := true, cfg := s.cfg, schedule := rest, rdata := s.rdata, draws := n } ∧
        s.draws ≤ n ∧
        ∀ a,
          if s.phase = .busy ∧ s.dst.toNat ≤ a ∧ a < s.cfg.bufBytes ∧
              ((decode s.cmd = .ok .encrypt ∧ a < s.dst.toNat + s.encLen) ∨
                (decode s.cmd = .ok .decrypt ∧ a < s.dst.toNat + s.len.toNat)) then
            s.draws + (a - s.dst.toNat) < n ∧ m.readByte a = Config.freeByte (s.draws + (a - s.dst.toNat))
          else
            (s.dst.toNat ≤ a → n ≤ s.draws + (a - s.dst.toNat)) ∧ m.readByte a = s.mem.readByte a) ∧
    (s.schedule = .reset false :: rest → s.inReset = true →
      step s = .next { State.reset with
        mem := s.mem, inReset := false, cfg := s.cfg, schedule := rest, rdata := s.rdata, draws := s.draws }) ∧
    (s.schedule = .reset s.inReset :: rest → step s = .next { s with schedule := rest })

/-- R232: while reset is asserted reads answer 0 and writes are ignored. -/
def Obligations.AccessesInReset : Prop :=
  ∀ (s : State) (addr : BusAddr) (v : Word) (rest : List Turn), s.inReset = true →
    (s.schedule = .read addr :: rest → step s = .next { s with schedule := rest, rdata := 0 }) ∧
    (s.schedule = .write addr v :: rest → step s = .next { s with schedule := rest })

/-- R207, R208: `irq` is DONE and IE. Every completion, good or failing, raises it where IE is 1; acceptance drops it;
so does clearing DONE or IE; setting IE while DONE is 1 asserts it at once. -/
def Obligations.InterruptOutput : Prop :=
  (∀ s : State, s.irq = true ↔ s.done = true ∧ s.ie = true) ∧
  (∀ s t : State, s.enginesTurn → s.phase = .busy → step s = .next t → t.irq = s.ie) ∧
  (∀ (s t : State) (w : Word), s.writesTo 0x010 w → s.phase = .idle → step s = .next t → t.irq = false) ∧
  (∀ (s t : State) (v : Word), s.writesTo 0x014 v → v.getLsbD 1 = true → step s = .next t → t.irq = false) ∧
  (∀ (s t : State) (v : Word), s.writesTo 0x00C v → step s = .next t → t.irq = (s.done && v.getLsbD 0))

/-- R209: a host write of 1 to STATUS.DONE that coincides with completion: both orders are runs of the model, and they
end with DONE 1 and DONE 0. (The schedule that orders them is the model's choice, log 2.) -/
def Obligations.BothOrdersOfARace : Prop :=
  ∀ (s : State) (addr : BusAddr) (v : Word) (rest : List Turn),
    s.phase = .busy → s.inReset = false → wordOffset addr = 0x014 → v.getLsbD 1 = true →
    (∃ t, Sys2Proof.core.run 2 { s with schedule := .write addr v :: .engine :: rest } = .next t ∧
      t.phase = .idle ∧ t.done = true) ∧
    (∃ t, Sys2Proof.core.run 2 { s with schedule := .engine :: .write addr v :: rest } = .next t ∧
      t.phase = .idle ∧ t.done = false)

/-- R101, R65, R234: the `NW` writes of `LDBIG reg, v`, run by an idle engine's host, load the register with `v` and
change nothing else (log 14). -/
def Obligations.LoadBigRegister : Prop :=
  ∀ (s : State) (r : BigReg) (v : Nat) (vars : List Word), s.inReset = false → s.phase = .idle → s.cfg.wf = true →
    r = .A ∨ r = .E ∨ r = .M → s.big r < 2 ^ s.cfg.keyBits → v < 2 ^ s.cfg.keyBits →
    System.run (List.replicate (numWords s.cfg) false)
        { host := { lines := ldBig s.cfg r v, pos := 0, vars := vars }, engine := s } =
      .next { host := { lines := ldBig s.cfg r v, pos := numWords s.cfg, vars := vars }, engine := s.setBig r v }
end

