-- ==== Sys2Proof/Laws/Arith.lean ====
section
/-! SUPPORT. The number theory behind the commands: the counters of the recursions are large enough, so each function
obeys its rule's equations, and what follows for sizes. -/

namespace Sys2Proof.Machine

theorem gcdRec_eq (n a b : Nat) (h : b ≤ n) : gcdRec n a b = Nat.gcd a b := by
  induction n generalizing a b with
  | zero =>
    obtain rfl : b = 0 := by omega
    simp [gcdRec]
  | succ n ih =>
    unfold gcdRec
    split
    · rename_i hb; subst hb; simp
    · rename_i hb
      have hlt : a % b < b := Nat.mod_lt _ (by omega)
      rw [ih b (a % b) (by omega), Nat.gcd_comm b (a % b), ← Nat.gcd_rec b a, Nat.gcd_comm]

/-- `Gcd` of R120 is the greatest common divisor. -/
theorem gcd_eq (a b : Nat) : gcd a b = Nat.gcd a b := gcdRec_eq b a b le_rfl

/-- Any count of levels from `m` on gives the triple of `ExtEuclid(a, m)`. -/
theorem extEuclidRec_enough (n a m : Nat) (h : m ≤ n) : extEuclidRec n a m = extEuclid a m := by
  suffices H : ∀ m n k a, m ≤ n → m ≤ k → extEuclidRec n a m = extEuclidRec k a m from H m n m a h le_rfl
  intro m
  induction m using Nat.strong_induction_on with
  | _ m ih =>
    intro n k a hn hk
    by_cases hm : m = 0
    · subst hm
      cases n <;> cases k <;> simp [extEuclidRec]
    · obtain ⟨n, rfl⟩ : ∃ j, n = j + 1 := ⟨n - 1, by omega⟩
      obtain ⟨k, rfl⟩ : ∃ j, k = j + 1 := ⟨k - 1, by omega⟩
      have hlt : a % m < m := Nat.mod_lt _ (by omega)
      simp only [extEuclidRec, if_neg hm]
      rw [ih (a % m) hlt n k m (by omega) (by omega)]

theorem bitLength_zero : bitLength 0 = 0 := rfl

theorem lt_two_pow_bitLength (v : Nat) : v < 2 ^ bitLength v := by
  unfold bitLength
  split
  · rename_i h; subst h; decide
  · exact Nat.lt_log2_self

/-- One round more than the loop needs changes nothing. -/
theorem modExpLoop_zero (m n b r : Nat) : modExpLoop m n b 0 r = r := by cases n <;> rfl

/-- The loop of R140 computes `r * b^e` modulo `m`, once it has rounds enough for the bits of `e`. -/
theorem modExpLoop_mod (m n b e r : Nat) (h : e < 2 ^ n) : modExpLoop m n b e r % m = r * b ^ e % m := by
  induction n generalizing b e r with
  | zero =>
    obtain rfl : e = 0 := by simpa using h
    simp [modExpLoop]
  | succ n ih =>
    unfold modExpLoop
    split
    · rename_i he; subst he; simp
    · rw [ih _ _ _ (by rw [pow_succ] at h; omega)]
      have hb : ((b * b % m) ^ (e / 2)) % m = (b ^ (2 * (e / 2))) % m := by
        rw [← Nat.pow_mod, pow_mul, pow_two]
      split
      · rename_i ho
        have he : e = 2 * (e / 2) + 1 := by omega
        conv_rhs => rw [he, pow_succ, show r * (b ^ (2 * (e / 2)) * b) = (r * b) * b ^ (2 * (e / 2)) by ring]
        rw [Nat.mul_mod, hb, Nat.mod_mod, ← Nat.mul_mod]
      · rename_i ho
        have he : e = 2 * (e / 2) := by omega
        conv_rhs => rw [he]
        rw [Nat.mul_mod, hb, ← Nat.mul_mod]

/-- With a round to run, the loop's result is below the modulus. -/
theorem modExpLoop_lt (m n b e r : Nat) (hm : 0 < m) (h : e < 2 ^ n) (hr : r < m ∨ 0 < e) :
    modExpLoop m n b e r < m := by
  induction n generalizing b e r with
  | zero =>
    obtain rfl : e = 0 := by simpa using h
    simpa [modExpLoop] using hr
  | succ n ih =>
    unfold modExpLoop
    split
    · rename_i he; subst he; simpa using hr
    · rename_i he
      apply ih _ _ _ (by rw [pow_succ] at h; omega)
      split
      · exact .inl (Nat.mod_lt _ hm)
      · exact .inr (by omega)

/-- `ModExp` never exceeds the modulus: it is below it, or it is the 1 of a zero exponent (R141, R142). -/
theorem modExp_lt (base exp mod bound : Nat) (hm : 0 < mod) (hb : mod < bound) : modExp base exp mod < bound := by
  by_cases he : exp = 0
  · subst he
    change 1 < bound
    omega
  · exact (modExpLoop_lt mod _ _ _ _ hm (lt_two_pow_bitLength exp) (.inr (by omega))).trans hb

/-! ### Byte strings -/

@[simp] theorem length_beBytes (v w : Nat) : (beBytes v w).length = w := by simp [beBytes]

theorem beToInt_lt (bs : List Byte) : beToInt bs < 256 ^ bs.length := by
  induction bs with
  | nil => simp [beToInt]
  | cons b bs ih =>
    have hb : b.toNat < 256 := b.isLt
    simp only [beToInt, List.length_cons, pow_succ]
    nlinarith

theorem intToBe_ok (v w : Nat) (h : v < 2 ^ (8 * w)) : intToBe v w = .ok (beBytes v w) := by
  unfold intToBe
  rw [if_neg (by omega)]

theorem intToBe_length (v w : Nat) (bs : List Byte) (h : intToBe v w = .ok bs) : bs.length = w := by
  unfold intToBe at h
  split at h
  · cases h
  · cases h; exact length_beBytes v w

theorem length_stripLeadingZeros_le (bs : List Byte) : (stripLeadingZeros bs).length ≤ bs.length := by
  induction bs with
  | nil => simp [stripLeadingZeros]
  | cons b bs ih =>
    unfold stripLeadingZeros
    split
    · simp only [List.length_cons]; omega
    · exact le_rfl

theorem length_blocks (L s : Nat) : (blocks L s).length = ceilDiv L s := by simp [blocks]

end Sys2Proof.Machine
end

