-- ==== Sys2Proof/Laws/Memory.lean ====
section
/-! SUPPORT. What each operation on the buffer does to a read of one byte, and that each keeps the canonical form and
the bound on addresses. -/

namespace Sys2Proof.Machine

/-! ### One byte -/

theorem Memory.find_writeByte (m : Memory) (a b : Nat) (v : Byte) :
    Memory.find b (Memory.writeByte a v m) = if b = a then some v else Memory.find b m := by
  induction m with
  | nil => simp [Memory.writeByte, Memory.find]
  | cons c rest ih =>
    obtain ⟨d, u⟩ := c
    unfold Memory.writeByte
    by_cases h1 : a < d
    · simp only [h1, if_true, Memory.find]
    · by_cases h2 : a = d
      · subst h2
        simp only [lt_irrefl, if_false, if_true, Memory.find]
        by_cases h3 : b = a <;> simp [h3]
      · simp only [h1, h2, if_false, Memory.find, ih]
        by_cases h3 : b = d
        · have h4 : b ≠ a := fun h5 => h2 (h5.symm.trans h3)
          simp only [h3, if_true]
          rw [if_neg (fun h5 => h4 (h3.trans h5))]
        · simp [h3]

/-- A byte read after a byte written: the written one at its own address, the old one elsewhere. -/
theorem Memory.readByte_writeByte (m : Memory) (a b : Nat) (v : Byte) :
    Memory.readByte (Memory.writeByte a v m) b = if b = a then v else m.readByte b := by
  unfold Memory.readByte
  rw [Memory.find_writeByte]
  split <;> rfl

theorem Memory.risesFrom_mono (m : Memory) {lo lo' : Nat} (hle : lo' ≤ lo) (h : m.risesFrom lo = true) :
    m.risesFrom lo' = true := by
  cases m with
  | nil => rfl
  | cons c rest =>
    simp only [Memory.risesFrom, Bool.and_eq_true, decide_eq_true_eq] at h ⊢
    exact ⟨hle.trans h.1, h.2⟩

theorem Memory.risesFrom_writeByte (m : Memory) (a : Nat) (v : Byte) (lo : Nat) (hlo : lo ≤ a)
    (h : m.risesFrom lo = true) : Memory.risesFrom lo (Memory.writeByte a v m) = true := by
  induction m generalizing lo with
  | nil => simp [Memory.writeByte, Memory.risesFrom, hlo]
  | cons c rest ih =>
    obtain ⟨d, u⟩ := c
    simp only [Memory.risesFrom, Bool.and_eq_true, decide_eq_true_eq] at h
    unfold Memory.writeByte
    split
    · rename_i h1
      simp only [Memory.risesFrom, Bool.and_eq_true, decide_eq_true_eq]
      exact ⟨hlo, h1, h.2⟩
    · split
      · rename_i h1 h2
        subst h2
        simp only [Memory.risesFrom, Bool.and_eq_true, decide_eq_true_eq]
        exact ⟨hlo, h.2⟩
      · rename_i h1 h2
        simp only [Memory.risesFrom, Bool.and_eq_true, decide_eq_true_eq]
        exact ⟨h.1, ih _ (by omega) h.2⟩

theorem Memory.wf_writeByte (m : Memory) (a : Nat) (v : Byte) (h : m.wf = true) :
    Memory.wf (Memory.writeByte a v m) = true :=
  Memory.risesFrom_writeByte m a v 0 (Nat.zero_le a) h

theorem Memory.below_writeByte (m : Memory) (a n : Nat) (v : Byte) (ha : a < n) (h : m.below n = true) :
    Memory.below n (Memory.writeByte a v m) = true := by
  induction m with
  | nil => simp [Memory.writeByte, Memory.below, ha]
  | cons c rest ih =>
    obtain ⟨d, u⟩ := c
    simp only [Memory.below, Bool.and_eq_true, decide_eq_true_eq] at h
    unfold Memory.writeByte
    split
    · simp [Memory.below, ha, h.1, h.2]
    · split
      · simp [Memory.below, ha, h.2]
      · simp [Memory.below, h.1, ih h.2]

/-! ### Lists of bytes -/

@[simp] theorem Memory.length_readBytes (m : Memory) (a n : Nat) : (m.readBytes a n).length = n := by
  induction n generalizing a with
  | zero => rfl
  | succ n ih => simp [Memory.readBytes, ih]

/-- A block of bytes is its bytes one by one. -/
theorem Memory.getElem?_readBytes (m : Memory) (a n i : Nat) :
    (m.readBytes a n)[i]? = if i < n then some (m.readByte (a + i)) else none := by
  induction n generalizing a i with
  | zero => simp [Memory.readBytes]
  | succ n ih =>
    cases i with
    | zero => simp [Memory.readBytes]
    | succ i =>
      simp only [Memory.readBytes, List.getElem?_cons_succ, ih, Nat.add_lt_add_iff_right]
      rw [show a + 1 + i = a + (i + 1) by omega]

/-- Two ranges that agree byte by byte give the same block. -/
theorem Memory.readBytes_congr (m m' : Memory) (a a' n : Nat)
    (h : ∀ i, i < n → m.readByte (a + i) = m'.readByte (a' + i)) : m.readBytes a n = m'.readBytes a' n := by
  apply List.ext_getElem?
  intro i
  rw [Memory.getElem?_readBytes, Memory.getElem?_readBytes]
  split
  · rename_i hi; rw [h i hi]
  · rfl

theorem Memory.readBytes_add (m : Memory) (a n k : Nat) :
    m.readBytes a (n + k) = m.readBytes a n ++ m.readBytes (a + n) k := by
  induction n generalizing a with
  | zero => simp [Memory.readBytes]
  | succ n ih =>
    rw [show n + 1 + k = (n + k) + 1 by omega]
    simp only [Memory.readBytes, List.cons_append, ih]
    rw [show a + 1 + n = a + (n + 1) by omega]

theorem Memory.wf_writeBytes (m : Memory) (a : Nat) (bs : List Byte) (h : m.wf = true) :
    Memory.wf (m.writeBytes a bs) = true := by
  induction bs generalizing m a with
  | nil => exact h
  | cons b bs ih => exact ih _ _ (Memory.wf_writeByte m a b h)

theorem Memory.below_writeBytes (m : Memory) (a n : Nat) (bs : List Byte) (ha : a + bs.length ≤ n)
    (h : m.below n = true) : Memory.below n (m.writeBytes a bs) = true := by
  induction bs generalizing m a with
  | nil => exact h
  | cons b bs ih =>
    simp only [List.length_cons] at ha
    exact ih _ _ (by omega) (Memory.below_writeByte m a n b (by omega) h)

/-- A byte read after a block written: the block's byte inside its range, the old one elsewhere. -/
theorem Memory.readByte_writeBytes (m : Memory) (a b : Nat) (bs : List Byte) :
    (m.writeBytes a bs).readByte b = if a ≤ b then (bs[b - a]?).getD (m.readByte b) else m.readByte b := by
  induction bs generalizing m a with
  | nil => simp [Memory.writeBytes]
  | cons c bs ih =>
    simp only [Memory.writeBytes]
    rw [ih, Memory.readByte_writeByte]
    by_cases h1 : a + 1 ≤ b
    · have h2 : a ≤ b := by omega
      have h3 : b ≠ a := by omega
      rw [if_pos h1, if_pos h2, if_neg h3, show b - a = (b - (a + 1)) + 1 by omega, List.getElem?_cons_succ]
    · by_cases h2 : b = a
      · subst h2; simp
      · rw [if_neg h1, if_neg h2, if_neg (by omega)]

theorem Memory.readByte_writeBytes_outside (m : Memory) (a b : Nat) (bs : List Byte)
    (hb : b < a ∨ a + bs.length ≤ b) : (m.writeBytes a bs).readByte b = m.readByte b := by
  rw [Memory.readByte_writeBytes]
  split
  · rw [List.getElem?_eq_none (by omega)]; rfl
  · rfl

/-- A block reads back as it was written. -/
theorem Memory.readBytes_writeBytes_same (m : Memory) (a : Nat) (bs : List Byte) :
    (m.writeBytes a bs).readBytes a bs.length = bs := by
  apply List.ext_getElem?
  intro i
  rw [Memory.getElem?_readBytes]
  split
  · rename_i hi
    rw [Memory.readByte_writeBytes, if_pos (by omega), show a + i - a = i by omega,
      List.getElem?_eq_getElem hi]
    rfl
  · rename_i hi
    rw [List.getElem?_eq_none (by omega)]

theorem Memory.readBytes_writeBytes_outside (m : Memory) (a b n : Nat) (bs : List Byte)
    (hb : b + n ≤ a ∨ a + bs.length ≤ b) : (m.writeBytes a bs).readBytes b n = m.readBytes b n :=
  Memory.readBytes_congr _ _ _ _ _ fun i hi => Memory.readByte_writeBytes_outside m a (b + i) bs (by omega)

/-! ### Unspecified bytes left by an abandoned command -/

theorem Memory.wf_scramble (m : Memory) (a n d : Nat) (h : m.wf = true) : Memory.wf (m.scramble a n d) = true := by
  induction n generalizing m a d with
  | zero => exact h
  | succ n ih => exact ih _ _ _ (Memory.wf_writeByte m a _ h)

theorem Memory.below_scramble (m : Memory) (a n d k : Nat) (ha : a + n ≤ k) (h : m.below k = true) :
    Memory.below k (m.scramble a n d) = true := by
  induction n generalizing m a d with
  | zero => exact h
  | succ n ih => exact ih _ _ _ (by omega) (Memory.below_writeByte m a k _ (by omega) h)

/-- Inside the range a byte is the draw of its place; outside it is the old one. -/
theorem Memory.readByte_scramble (m : Memory) (a n d b : Nat) :
    (m.scramble a n d).readByte b =
      if a ≤ b ∧ b < a + n then Config.freeByte (d + (b - a)) else m.readByte b := by
  induction n generalizing m a d with
  | zero =>
    rw [if_neg (by omega)]; rfl
  | succ n ih =>
    simp only [Memory.scramble]
    rw [ih, Memory.readByte_writeByte]
    by_cases h1 : b = a
    · subst h1
      rw [if_neg (by omega), if_pos rfl, if_pos (by omega), Nat.sub_self]; rfl
    · rw [if_neg h1]
      by_cases h2 : a + 1 ≤ b ∧ b < a + 1 + n
      · rw [if_pos h2, if_pos (by omega), show d + 1 + (b - (a + 1)) = d + (b - a) by omega]
      · rw [if_neg h2, if_neg (by omega)]

end Sys2Proof.Machine
end

