-- ==== Sys2Proof/Laws/Blocks.lean ====
section
/-! SUPPORT. The block loops of ENCRYPT and DECRYPT, said once: what they leave unchanged and what they write. -/

namespace Sys2Proof.Machine

/-! ### Encryption -/

/-- One round: a block is converted, and written, before the others. -/
theorem encryptBlocks_cons (k e n src dst i off len : Nat) (l : List (Nat × Nat)) (m m' : Memory)
    (h : encryptBlocks k e n src dst i ((off, len) :: l) m = .ok m') :
    ∃ bs, intToBe (modExp (beToInt (m.readBytes (src + off) len)) e n) k = .ok bs ∧
      encryptBlocks k e n src dst (i + 1) l (m.writeBytes (dst + i * k) bs) = .ok m' := by
  unfold encryptBlocks at h
  split at h
  · cases h
  · rename_i bs hbs; exact ⟨bs, hbs, h⟩

theorem encryptBlocks_outside (k e n src dst i : Nat) (l : List (Nat × Nat)) (m m' : Memory)
    (h : encryptBlocks k e n src dst i l m = .ok m') (a : Nat)
    (ha : a < dst + i * k ∨ dst + (i + l.length) * k ≤ a) : m'.readByte a = m.readByte a := by
  induction l generalizing i m with
  | nil => cases h; rfl
  | cons b l ih =>
    obtain ⟨off, len⟩ := b
    obtain ⟨bs, hbs, h'⟩ := encryptBlocks_cons _ _ _ _ _ _ _ _ _ _ _ h
    have hl := intToBe_length _ _ _ hbs
    have e1 : dst + (i + 1) * k = dst + i * k + k := by ring
    have e2 : dst + (i + (l.length + 1)) * k = dst + i * k + k + l.length * k := by ring
    have e3 : dst + (i + 1 + l.length) * k = dst + i * k + k + l.length * k := by ring
    rw [List.length_cons, e2] at ha
    rw [ih _ _ h' (by rw [e1, e3]; omega), Memory.readByte_writeBytes_outside _ _ _ _ (by omega)]

theorem encryptBlocks_wf (k e n src dst i : Nat) (l : List (Nat × Nat)) (m m' : Memory)
    (h : encryptBlocks k e n src dst i l m = .ok m') (hm : m.wf = true) : m'.wf = true := by
  induction l generalizing i m with
  | nil => cases h; exact hm
  | cons b l ih =>
    obtain ⟨bs, -, h'⟩ := encryptBlocks_cons _ _ _ _ _ _ _ _ _ _ _ h
    exact ih _ _ h' (Memory.wf_writeBytes m _ bs hm)

theorem encryptBlocks_below (k e n src dst i N : Nat) (l : List (Nat × Nat)) (m m' : Memory)
    (h : encryptBlocks k e n src dst i l m = .ok m') (hN : dst + (i + l.length) * k ≤ N)
    (hm : m.below N = true) : m'.below N = true := by
  induction l generalizing i m with
  | nil => cases h; exact hm
  | cons b l ih =>
    obtain ⟨bs, hbs, h'⟩ := encryptBlocks_cons _ _ _ _ _ _ _ _ _ _ _ h
    have hl := intToBe_length _ _ _ hbs
    have e2 : dst + (i + (l.length + 1)) * k = dst + i * k + k + l.length * k := by ring
    have e3 : dst + (i + 1 + l.length) * k = dst + i * k + k + l.length * k := by ring
    rw [List.length_cons, e2] at hN
    exact ih _ _ h' (by omega) (Memory.below_writeBytes m _ N bs (by omega) hm)

/-- Each block's `k` bytes are those of its exponentiated integer, read from the buffer as it stood before the loop,
where the sources lie outside the range written. -/
theorem encryptBlocks_block (k e n src dst i : Nat) (l : List (Nat × Nat)) (m m' : Memory)
    (h : encryptBlocks k e n src dst i l m = .ok m')
    (hd : ∀ b ∈ l, src + b.1 + b.2 ≤ dst + i * k ∨ dst + (i + l.length) * k ≤ src + b.1)
    (j : Nat) (off len : Nat) (hj : l[j]? = some (off, len)) :
    intToBe (modExp (beToInt (m.readBytes (src + off) len)) e n) k = .ok (m'.readBytes (dst + (i + j) * k) k) := by
  induction l generalizing i m j with
  | nil => simp at hj
  | cons b l ih =>
    obtain ⟨off0, len0⟩ := b
    obtain ⟨bs, hbs, h'⟩ := encryptBlocks_cons _ _ _ _ _ _ _ _ _ _ _ h
    have hl := intToBe_length _ _ _ hbs
    have e1 : dst + (i + 1) * k = dst + i * k + k := by ring
    have e2 : dst + (i + (l.length + 1)) * k = dst + i * k + k + l.length * k := by ring
    have e3 : dst + (i + 1 + l.length) * k = dst + i * k + k + l.length * k := by ring
    rw [List.length_cons, e2] at hd
    cases j with
    | zero =>
      simp only [List.getElem?_cons_zero, Option.some.injEq, Prod.mk.injEq] at hj
      obtain ⟨rfl, rfl⟩ := hj
      rw [hbs, Nat.add_zero]
      congr 1
      symm
      calc m'.readBytes (dst + i * k) k
          = (m.writeBytes (dst + i * k) bs).readBytes (dst + i * k) k :=
            Memory.readBytes_congr _ _ _ _ _ fun t ht =>
              encryptBlocks_outside _ _ _ _ _ _ _ _ _ h' _ (by rw [e1]; omega)
        _ = bs := by conv_lhs => rw [← hl]
                     exact Memory.readBytes_writeBytes_same m _ bs
    | succ j =>
      simp only [List.getElem?_cons_succ] at hj
      have hmem : (off, len) ∈ l := List.mem_of_getElem? hj
      have hsrc := hd (off, len) (List.mem_cons_of_mem _ hmem)
      have key := ih (i + 1) _ h' (fun b hb => by
        have := hd b (List.mem_cons_of_mem _ hb)
        rw [e1, e3]; omega) j hj
      rw [Memory.readBytes_writeBytes_outside _ _ _ _ _ (by simp only at hsrc; omega)] at key
      rw [key, show i + (j + 1) = i + 1 + j by omega]

/-- Where no integer overflows its width the loop answers a buffer. -/
theorem encryptBlocks_ok (k e n src dst i : Nat) (l : List (Nat × Nat)) (m : Memory)
    (h : ∀ v, modExp v e n < 2 ^ (8 * k)) : ∃ m', encryptBlocks k e n src dst i l m = .ok m' := by
  induction l generalizing i m with
  | nil => exact ⟨m, rfl⟩
  | cons b l ih =>
    obtain ⟨off, len⟩ := b
    unfold encryptBlocks
    rw [intToBe_ok _ _ (h _)]
    exact ih _ _

/-- A code the loop raises is `ENC_OVERFLOW` (R161). -/
theorem encryptBlocks_error (k e n src dst i : Nat) (l : List (Nat × Nat)) (m : Memory) (c : ErrCode)
    (h : encryptBlocks k e n src dst i l m = .error c) : c = .encOverflow := by
  induction l generalizing i m with
  | nil => cases h
  | cons b l ih =>
    obtain ⟨off, len⟩ := b
    unfold encryptBlocks at h
    split at h
    · rename_i c' hc
      cases h
      unfold intToBe at hc
      split at hc <;> cases hc
      rfl
    · exact ih _ _ h

/-! ### Decryption -/

/-- One block: either it is skipped and counted, or its stripped bytes are appended. -/
theorem decryptPut_cases (k dst p : Nat) (acc : DecryptAcc) :
    (2 ^ (8 * k) ≤ p ∧ decryptPut k dst p acc = { acc with fails := acc.fails + 1 }) ∨
    (p < 2 ^ (8 * k) ∧ decryptPut k dst p acc =
      { mem := acc.mem.writeBytes (dst + acc.pos) (stripLeadingZeros (beBytes p k))
        pos := acc.pos + (stripLeadingZeros (beBytes p k)).length
        fails := acc.fails }) := by
  unfold decryptPut intToBe
  by_cases h : p ≥ 2 ^ (8 * k)
  · left; rw [if_pos h]; exact ⟨h, rfl⟩
  · right; rw [if_neg h]; exact ⟨by omega, rfl⟩

theorem length_stripped_le (p k : Nat) : (stripLeadingZeros (beBytes p k)).length ≤ k := by
  have := length_stripLeadingZeros_le (beBytes p k)
  rwa [length_beBytes] at this

theorem decryptBlocks_frame (k d n src dst i left : Nat) (acc : DecryptAcc) :
    (decryptBlocks k d n src dst i left acc).pos ≤ acc.pos + left * k ∧
    (∀ a, a < dst + acc.pos ∨ dst + (decryptBlocks k d n src dst i left acc).pos ≤ a →
      (decryptBlocks k d n src dst i left acc).mem.readByte a = acc.mem.readByte a) ∧
    acc.pos ≤ (decryptBlocks k d n src dst i left acc).pos ∧
    (acc.mem.wf = true → (decryptBlocks k d n src dst i left acc).mem.wf = true) ∧
    (∀ N, dst + acc.pos + left * k ≤ N → acc.mem.below N = true →
      (decryptBlocks k d n src dst i left acc).mem.below N = true) := by
  induction left generalizing i acc with
  | zero => simp [decryptBlocks]
  | succ left ih =>
    simp only [decryptBlocks]
    set p := modExp (beToInt (acc.mem.readBytes (src + i * k) k)) d n
    have e : (left + 1) * k = left * k + k := by ring
    rw [e]
    obtain ⟨h1, h2, h3, h4, h5⟩ := ih (i + 1) (decryptPut k dst p acc)
    rcases decryptPut_cases k dst p acc with ⟨-, hp⟩ | ⟨-, hp⟩
    · rw [hp] at h1 h2 h3 h4 h5 ⊢
      simp only at h1 h3 h5 ⊢
      exact ⟨by omega, h2, h3, h4, fun N hN => h5 N (by omega)⟩
    · have hlen := length_stripped_le p k
      rw [hp] at h1 h2 h3 h4 h5 ⊢
      simp only at h1 h2 h3 h4 h5 ⊢
      refine ⟨by omega, fun a ha => ?_, by omega, fun hw => h4 (Memory.wf_writeBytes _ _ _ hw),
        fun N hN hb => h5 N (by omega) (Memory.below_writeBytes _ _ _ _ (by omega) hb)⟩
      rw [h2 a (by omega), Memory.readByte_writeBytes_outside _ _ _ _ (by omega)]

/-- The bytes block number `i` decrypts to. -/
def plainBlock (k d n src : Nat) (m : Memory) (i : Nat) : List Byte :=
  stripLeadingZeros (beBytes (modExp (beToInt (m.readBytes (src + i * k) k)) d n) k)

/-- Where every block fits its width and the source lies outside the range written, the output is the stripped blocks
in index order, each read from the buffer as it stood before the loop. -/
theorem decryptBlocks_output (k d n src dst i left : Nat) (acc : DecryptAcc) (m : Memory)
    (hfit : ∀ v, modExp v d n < 2 ^ (8 * k))
    (hsame : ∀ t, i ≤ t → t < i + left → acc.mem.readBytes (src + t * k) k = m.readBytes (src + t * k) k)
    (hd : src + (i + left) * k ≤ dst + acc.pos ∨ dst + acc.pos + left * k ≤ src + i * k) :
    (decryptBlocks k d n src dst i left acc).fails = acc.fails ∧
    (decryptBlocks k d n src dst i left acc).pos =
      acc.pos + ((List.range' i left).map (plainBlock k d n src m)).flatten.length ∧
    (decryptBlocks k d n src dst i left acc).mem.readBytes (dst + acc.pos)
      ((List.range' i left).map (plainBlock k d n src m)).flatten.length =
      ((List.range' i left).map (plainBlock k d n src m)).flatten := by
  induction left generalizing i acc with
  | zero => simp [decryptBlocks, Memory.readBytes]
  | succ left ih =>
    have hblock : acc.mem.readBytes (src + i * k) k = m.readBytes (src + i * k) k := hsame i le_rfl (by omega)
    simp only [decryptBlocks, List.range'_succ, List.map_cons, List.flatten_cons, List.length_append]
    rw [hblock]
    set p := modExp (beToInt (m.readBytes (src + i * k) k)) d n with hpdef
    have hplain : plainBlock k d n src m i = stripLeadingZeros (beBytes p k) := rfl
    rcases decryptPut_cases k dst p acc with ⟨hp, -⟩ | ⟨-, hp⟩
    · exact absurd (hfit (beToInt (m.readBytes (src + i * k) k))) (by rw [← hpdef]; omega)
    · have hlen := length_stripped_le p k
      have e1 : src + (i + (left + 1)) * k = src + i * k + k + left * k := by ring
      have e2 : dst + acc.pos + (left + 1) * k = dst + acc.pos + k + left * k := by ring
      have e3 : src + (i + 1 + left) * k = src + i * k + k + left * k := by ring
      have e4 : src + (i + 1) * k = src + i * k + k := by ring
      rw [e1, e2] at hd
      rw [hp, hplain]
      set s := stripLeadingZeros (beBytes p k)
      set out := ((List.range' (i + 1) left).map (plainBlock k d n src m)).flatten with hout
      obtain ⟨g1, g2, g3⟩ := ih (i + 1)
        { mem := acc.mem.writeBytes (dst + acc.pos) s, pos := acc.pos + s.length, fails := acc.fails }
        (fun t ht ht' => by
          have e5 : src + t * k = src + i * k + (t - i) * k := by
            obtain ⟨u, rfl⟩ : ∃ u, t = i + u := ⟨t - i, by omega⟩
            rw [Nat.add_sub_cancel_left]; ring
          have e6 : (t - i) * k + k ≤ left * k + k := by
            have : (t - i) * k ≤ left * k := Nat.mul_le_mul_right k (by omega)
            omega
          have e7 : k ≤ (t - i) * k := Nat.le_mul_of_pos_left k (by omega)
          simp only
          rw [Memory.readBytes_writeBytes_outside _ _ _ _ _ (by rw [e5]; omega)]
          exact hsame t (by omega) (by omega))
        (by simp only; rw [e3, e4]; omega)
      simp only [← hout] at g1 g2 g3 ⊢
      refine ⟨g1, by omega, ?_⟩
      obtain ⟨-, f2, -⟩ := decryptBlocks_frame k d n src dst (i + 1) left
        { mem := acc.mem.writeBytes (dst + acc.pos) s, pos := acc.pos + s.length, fails := acc.fails }
      rw [Memory.readBytes_add]
      congr 1
      · calc _ = (acc.mem.writeBytes (dst + acc.pos) s).readBytes (dst + acc.pos) s.length :=
              Memory.readBytes_congr _ _ _ _ _ fun t ht => f2 _ (by simp only; omega)
          _ = s := Memory.readBytes_writeBytes_same _ _ _
      · rw [← Nat.add_assoc] at g3; exact g3

end Sys2Proof.Machine
end

