-- ==== Sys2Proof/Laws/State.lean ====
section
/-! SUPPORT. What each update of the state does to each field, one lemma per field, each true by unfolding once. -/

namespace Sys2Proof.Machine

/-! ### State.accept -/

@[simp] theorem State.accept_regA (s : State) (w : Word) : (s.accept w).regA = s.regA := rfl
@[simp] theorem State.accept_regE (s : State) (w : Word) : (s.accept w).regE = s.regE := rfl
@[simp] theorem State.accept_regM (s : State) (w : Word) : (s.accept w).regM = s.regM := rfl
@[simp] theorem State.accept_regR (s : State) (w : Word) : (s.accept w).regR = s.regR := rfl
@[simp] theorem State.accept_regX (s : State) (w : Word) : (s.accept w).regX = s.regX := rfl
@[simp] theorem State.accept_regY (s : State) (w : Word) : (s.accept w).regY = s.regY := rfl
@[simp] theorem State.accept_ie (s : State) (w : Word) : (s.accept w).ie = s.ie := rfl
@[simp] theorem State.accept_cmd (s : State) (w : Word) : (s.accept w).cmd = w := rfl
@[simp] theorem State.accept_done (s : State) (w : Word) : (s.accept w).done = false := rfl
@[simp] theorem State.accept_err (s : State) (w : Word) : (s.accept w).err = false := rfl
@[simp] theorem State.accept_werr (s : State) (w : Word) : (s.accept w).werr = s.werr := rfl
@[simp] theorem State.accept_errCode (s : State) (w : Word) : (s.accept w).errCode = .noError := rfl
@[simp] theorem State.accept_src (s : State) (w : Word) : (s.accept w).src = s.src := rfl
@[simp] theorem State.accept_dst (s : State) (w : Word) : (s.accept w).dst = s.dst := rfl
@[simp] theorem State.accept_len (s : State) (w : Word) : (s.accept w).len = s.len := rfl
@[simp] theorem State.accept_outlen (s : State) (w : Word) : (s.accept w).outlen = s.outlen := rfl
@[simp] theorem State.accept_failcnt (s : State) (w : Word) : (s.accept w).failcnt = s.failcnt := rfl
@[simp] theorem State.accept_xneg (s : State) (w : Word) : (s.accept w).xneg = s.xneg := rfl
@[simp] theorem State.accept_yneg (s : State) (w : Word) : (s.accept w).yneg = s.yneg := rfl
@[simp] theorem State.accept_mem (s : State) (w : Word) : (s.accept w).mem = s.mem := rfl
@[simp] theorem State.accept_phase (s : State) (w : Word) : (s.accept w).phase = .busy := rfl
@[simp] theorem State.accept_inReset (s : State) (w : Word) : (s.accept w).inReset = s.inReset := rfl
@[simp] theorem State.accept_cfg (s : State) (w : Word) : (s.accept w).cfg = s.cfg := rfl
@[simp] theorem State.accept_schedule (s : State) (w : Word) : (s.accept w).schedule = s.schedule := rfl
@[simp] theorem State.accept_rdata (s : State) (w : Word) : (s.accept w).rdata = s.rdata := rfl
@[simp] theorem State.accept_draws (s : State) (w : Word) : (s.accept w).draws = s.draws := rfl

/-! ### State.finish -/

@[simp] theorem State.finish_regA (s : State) : s.finish.regA = s.regA := rfl
@[simp] theorem State.finish_regE (s : State) : s.finish.regE = s.regE := rfl
@[simp] theorem State.finish_regM (s : State) : s.finish.regM = s.regM := rfl
@[simp] theorem State.finish_regR (s : State) : s.finish.regR = s.regR := rfl
@[simp] theorem State.finish_regX (s : State) : s.finish.regX = s.regX := rfl
@[simp] theorem State.finish_regY (s : State) : s.finish.regY = s.regY := rfl
@[simp] theorem State.finish_ie (s : State) : s.finish.ie = s.ie := rfl
@[simp] theorem State.finish_cmd (s : State) : s.finish.cmd = s.cmd := rfl
@[simp] theorem State.finish_done (s : State) : s.finish.done = true := rfl
@[simp] theorem State.finish_err (s : State) : s.finish.err = s.err := rfl
@[simp] theorem State.finish_werr (s : State) : s.finish.werr = s.werr := rfl
@[simp] theorem State.finish_errCode (s : State) : s.finish.errCode = s.errCode := rfl
@[simp] theorem State.finish_src (s : State) : s.finish.src = s.src := rfl
@[simp] theorem State.finish_dst (s : State) : s.finish.dst = s.dst := rfl
@[simp] theorem State.finish_len (s : State) : s.finish.len = s.len := rfl
@[simp] theorem State.finish_outlen (s : State) : s.finish.outlen = s.outlen := rfl
@[simp] theorem State.finish_failcnt (s : State) : s.finish.failcnt = s.failcnt := rfl
@[simp] theorem State.finish_xneg (s : State) : s.finish.xneg = s.xneg := rfl
@[simp] theorem State.finish_yneg (s : State) : s.finish.yneg = s.yneg := rfl
@[simp] theorem State.finish_mem (s : State) : s.finish.mem = s.mem := rfl
@[simp] theorem State.finish_phase (s : State) : s.finish.phase = .idle := rfl
@[simp] theorem State.finish_inReset (s : State) : s.finish.inReset = s.inReset := rfl
@[simp] theorem State.finish_cfg (s : State) : s.finish.cfg = s.cfg := rfl
@[simp] theorem State.finish_schedule (s : State) : s.finish.schedule = s.schedule := rfl
@[simp] theorem State.finish_rdata (s : State) : s.finish.rdata = s.rdata := rfl
@[simp] theorem State.finish_draws (s : State) : s.finish.draws = s.draws := rfl

/-! ### State.raiseError -/

@[simp] theorem State.raiseError_regA (s : State) (c : ErrCode) : (s.raiseError c).regA = s.regA := rfl
@[simp] theorem State.raiseError_regE (s : State) (c : ErrCode) : (s.raiseError c).regE = s.regE := rfl
@[simp] theorem State.raiseError_regM (s : State) (c : ErrCode) : (s.raiseError c).regM = s.regM := rfl
@[simp] theorem State.raiseError_regR (s : State) (c : ErrCode) : (s.raiseError c).regR = s.regR := rfl
@[simp] theorem State.raiseError_regX (s : State) (c : ErrCode) : (s.raiseError c).regX = s.regX := rfl
@[simp] theorem State.raiseError_regY (s : State) (c : ErrCode) : (s.raiseError c).regY = s.regY := rfl
@[simp] theorem State.raiseError_ie (s : State) (c : ErrCode) : (s.raiseError c).ie = s.ie := rfl
@[simp] theorem State.raiseError_cmd (s : State) (c : ErrCode) : (s.raiseError c).cmd = s.cmd := rfl
@[simp] theorem State.raiseError_done (s : State) (c : ErrCode) : (s.raiseError c).done = true := rfl
@[simp] theorem State.raiseError_err (s : State) (c : ErrCode) : (s.raiseError c).err = true := rfl
@[simp] theorem State.raiseError_werr (s : State) (c : ErrCode) : (s.raiseError c).werr = s.werr := rfl
@[simp] theorem State.raiseError_errCode (s : State) (c : ErrCode) : (s.raiseError c).errCode = c := rfl
@[simp] theorem State.raiseError_src (s : State) (c : ErrCode) : (s.raiseError c).src = s.src := rfl
@[simp] theorem State.raiseError_dst (s : State) (c : ErrCode) : (s.raiseError c).dst = s.dst := rfl
@[simp] theorem State.raiseError_len (s : State) (c : ErrCode) : (s.raiseError c).len = s.len := rfl
@[simp] theorem State.raiseError_outlen (s : State) (c : ErrCode) : (s.raiseError c).outlen = s.outlen := rfl
@[simp] theorem State.raiseError_failcnt (s : State) (c : ErrCode) : (s.raiseError c).failcnt = s.failcnt := rfl
@[simp] theorem State.raiseError_xneg (s : State) (c : ErrCode) : (s.raiseError c).xneg = s.xneg := rfl
@[simp] theorem State.raiseError_yneg (s : State) (c : ErrCode) : (s.raiseError c).yneg = s.yneg := rfl
@[simp] theorem State.raiseError_mem (s : State) (c : ErrCode) : (s.raiseError c).mem = s.mem := rfl
@[simp] theorem State.raiseError_phase (s : State) (c : ErrCode) : (s.raiseError c).phase = .idle := rfl
@[simp] theorem State.raiseError_inReset (s : State) (c : ErrCode) : (s.raiseError c).inReset = s.inReset := rfl
@[simp] theorem State.raiseError_cfg (s : State) (c : ErrCode) : (s.raiseError c).cfg = s.cfg := rfl
@[simp] theorem State.raiseError_schedule (s : State) (c : ErrCode) : (s.raiseError c).schedule = s.schedule := rfl
@[simp] theorem State.raiseError_rdata (s : State) (c : ErrCode) : (s.raiseError c).rdata = s.rdata := rfl
@[simp] theorem State.raiseError_draws (s : State) (c : ErrCode) : (s.raiseError c).draws = s.draws := rfl

/-! ### State.answer -/

@[simp] theorem State.answer_regA (s : State) (w : Word) : (s.answer w).regA = s.regA := rfl
@[simp] theorem State.answer_regE (s : State) (w : Word) : (s.answer w).regE = s.regE := rfl
@[simp] theorem State.answer_regM (s : State) (w : Word) : (s.answer w).regM = s.regM := rfl
@[simp] theorem State.answer_regR (s : State) (w : Word) : (s.answer w).regR = s.regR := rfl
@[simp] theorem State.answer_regX (s : State) (w : Word) : (s.answer w).regX = s.regX := rfl
@[simp] theorem State.answer_regY (s : State) (w : Word) : (s.answer w).regY = s.regY := rfl
@[simp] theorem State.answer_ie (s : State) (w : Word) : (s.answer w).ie = s.ie := rfl
@[simp] theorem State.answer_cmd (s : State) (w : Word) : (s.answer w).cmd = s.cmd := rfl
@[simp] theorem State.answer_done (s : State) (w : Word) : (s.answer w).done = s.done := rfl
@[simp] theorem State.answer_err (s : State) (w : Word) : (s.answer w).err = s.err := rfl
@[simp] theorem State.answer_werr (s : State) (w : Word) : (s.answer w).werr = s.werr := rfl
@[simp] theorem State.answer_errCode (s : State) (w : Word) : (s.answer w).errCode = s.errCode := rfl
@[simp] theorem State.answer_src (s : State) (w : Word) : (s.answer w).src = s.src := rfl
@[simp] theorem State.answer_dst (s : State) (w : Word) : (s.answer w).dst = s.dst := rfl
@[simp] theorem State.answer_len (s : State) (w : Word) : (s.answer w).len = s.len := rfl
@[simp] theorem State.answer_outlen (s : State) (w : Word) : (s.answer w).outlen = s.outlen := rfl
@[simp] theorem State.answer_failcnt (s : State) (w : Word) : (s.answer w).failcnt = s.failcnt := rfl
@[simp] theorem State.answer_xneg (s : State) (w : Word) : (s.answer w).xneg = s.xneg := rfl
@[simp] theorem State.answer_yneg (s : State) (w : Word) : (s.answer w).yneg = s.yneg := rfl
@[simp] theorem State.answer_mem (s : State) (w : Word) : (s.answer w).mem = s.mem := rfl
@[simp] theorem State.answer_phase (s : State) (w : Word) : (s.answer w).phase = s.phase := rfl
@[simp] theorem State.answer_inReset (s : State) (w : Word) : (s.answer w).inReset = s.inReset := rfl
@[simp] theorem State.answer_cfg (s : State) (w : Word) : (s.answer w).cfg = s.cfg := rfl
@[simp] theorem State.answer_schedule (s : State) (w : Word) : (s.answer w).schedule = s.schedule := rfl
@[simp] theorem State.answer_rdata (s : State) (w : Word) : (s.answer w).rdata = w := rfl
@[simp] theorem State.answer_draws (s : State) (w : Word) : (s.answer w).draws = s.draws := rfl

/-! ### State.answerFree -/

@[simp] theorem State.answerFree_regA (s : State) : s.answerFree.regA = s.regA := rfl
@[simp] theorem State.answerFree_regE (s : State) : s.answerFree.regE = s.regE := rfl
@[simp] theorem State.answerFree_regM (s : State) : s.answerFree.regM = s.regM := rfl
@[simp] theorem State.answerFree_regR (s : State) : s.answerFree.regR = s.regR := rfl
@[simp] theorem State.answerFree_regX (s : State) : s.answerFree.regX = s.regX := rfl
@[simp] theorem State.answerFree_regY (s : State) : s.answerFree.regY = s.regY := rfl
@[simp] theorem State.answerFree_ie (s : State) : s.answerFree.ie = s.ie := rfl
@[simp] theorem State.answerFree_cmd (s : State) : s.answerFree.cmd = s.cmd := rfl
@[simp] theorem State.answerFree_done (s : State) : s.answerFree.done = s.done := rfl
@[simp] theorem State.answerFree_err (s : State) : s.answerFree.err = s.err := rfl
@[simp] theorem State.answerFree_werr (s : State) : s.answerFree.werr = s.werr := rfl
@[simp] theorem State.answerFree_errCode (s : State) : s.answerFree.errCode = s.errCode := rfl
@[simp] theorem State.answerFree_src (s : State) : s.answerFree.src = s.src := rfl
@[simp] theorem State.answerFree_dst (s : State) : s.answerFree.dst = s.dst := rfl
@[simp] theorem State.answerFree_len (s : State) : s.answerFree.len = s.len := rfl
@[simp] theorem State.answerFree_outlen (s : State) : s.answerFree.outlen = s.outlen := rfl
@[simp] theorem State.answerFree_failcnt (s : State) : s.answerFree.failcnt = s.failcnt := rfl
@[simp] theorem State.answerFree_xneg (s : State) : s.answerFree.xneg = s.xneg := rfl
@[simp] theorem State.answerFree_yneg (s : State) : s.answerFree.yneg = s.yneg := rfl
@[simp] theorem State.answerFree_mem (s : State) : s.answerFree.mem = s.mem := rfl
@[simp] theorem State.answerFree_phase (s : State) : s.answerFree.phase = s.phase := rfl
@[simp] theorem State.answerFree_inReset (s : State) : s.answerFree.inReset = s.inReset := rfl
@[simp] theorem State.answerFree_cfg (s : State) : s.answerFree.cfg = s.cfg := rfl
@[simp] theorem State.answerFree_schedule (s : State) : s.answerFree.schedule = s.schedule := rfl
@[simp] theorem State.answerFree_rdata (s : State) : s.answerFree.rdata = Config.freeWord s.draws := rfl
@[simp] theorem State.answerFree_draws (s : State) : s.answerFree.draws = s.draws + 1 := rfl

/-! ### State.dropWrite -/

@[simp] theorem State.dropWrite_regA (s : State) : s.dropWrite.regA = s.regA := rfl
@[simp] theorem State.dropWrite_regE (s : State) : s.dropWrite.regE = s.regE := rfl
@[simp] theorem State.dropWrite_regM (s : State) : s.dropWrite.regM = s.regM := rfl
@[simp] theorem State.dropWrite_regR (s : State) : s.dropWrite.regR = s.regR := rfl
@[simp] theorem State.dropWrite_regX (s : State) : s.dropWrite.regX = s.regX := rfl
@[simp] theorem State.dropWrite_regY (s : State) : s.dropWrite.regY = s.regY := rfl
@[simp] theorem State.dropWrite_ie (s : State) : s.dropWrite.ie = s.ie := rfl
@[simp] theorem State.dropWrite_cmd (s : State) : s.dropWrite.cmd = s.cmd := rfl
@[simp] theorem State.dropWrite_done (s : State) : s.dropWrite.done = s.done := rfl
@[simp] theorem State.dropWrite_err (s : State) : s.dropWrite.err = s.err := rfl
@[simp] theorem State.dropWrite_werr (s : State) : s.dropWrite.werr = true := rfl
@[simp] theorem State.dropWrite_errCode (s : State) : s.dropWrite.errCode = s.errCode := rfl
@[simp] theorem State.dropWrite_src (s : State) : s.dropWrite.src = s.src := rfl
@[simp] theorem State.dropWrite_dst (s : State) : s.dropWrite.dst = s.dst := rfl
@[simp] theorem State.dropWrite_len (s : State) : s.dropWrite.len = s.len := rfl
@[simp] theorem State.dropWrite_outlen (s : State) : s.dropWrite.outlen = s.outlen := rfl
@[simp] theorem State.dropWrite_failcnt (s : State) : s.dropWrite.failcnt = s.failcnt := rfl
@[simp] theorem State.dropWrite_xneg (s : State) : s.dropWrite.xneg = s.xneg := rfl
@[simp] theorem State.dropWrite_yneg (s : State) : s.dropWrite.yneg = s.yneg := rfl
@[simp] theorem State.dropWrite_mem (s : State) : s.dropWrite.mem = s.mem := rfl
@[simp] theorem State.dropWrite_phase (s : State) : s.dropWrite.phase = s.phase := rfl
@[simp] theorem State.dropWrite_inReset (s : State) : s.dropWrite.inReset = s.inReset := rfl
@[simp] theorem State.dropWrite_cfg (s : State) : s.dropWrite.cfg = s.cfg := rfl
@[simp] theorem State.dropWrite_schedule (s : State) : s.dropWrite.schedule = s.schedule := rfl
@[simp] theorem State.dropWrite_rdata (s : State) : s.dropWrite.rdata = s.rdata := rfl
@[simp] theorem State.dropWrite_draws (s : State) : s.dropWrite.draws = s.draws := rfl

/-! ### State.clearStatus -/

@[simp] theorem State.clearStatus_regA (s : State) (v : Word) : (s.clearStatus v).regA = s.regA := rfl
@[simp] theorem State.clearStatus_regE (s : State) (v : Word) : (s.clearStatus v).regE = s.regE := rfl
@[simp] theorem State.clearStatus_regM (s : State) (v : Word) : (s.clearStatus v).regM = s.regM := rfl
@[simp] theorem State.clearStatus_regR (s : State) (v : Word) : (s.clearStatus v).regR = s.regR := rfl
@[simp] theorem State.clearStatus_regX (s : State) (v : Word) : (s.clearStatus v).regX = s.regX := rfl
@[simp] theorem State.clearStatus_regY (s : State) (v : Word) : (s.clearStatus v).regY = s.regY := rfl
@[simp] theorem State.clearStatus_ie (s : State) (v : Word) : (s.clearStatus v).ie = s.ie := rfl
@[simp] theorem State.clearStatus_cmd (s : State) (v : Word) : (s.clearStatus v).cmd = s.cmd := rfl
@[simp] theorem State.clearStatus_done (s : State) (v : Word) : (s.clearStatus v).done = (s.done && !v.getLsbD 1) := rfl
@[simp] theorem State.clearStatus_err (s : State) (v : Word) : (s.clearStatus v).err = (s.err && !v.getLsbD 2) := rfl
@[simp] theorem State.clearStatus_werr (s : State) (v : Word) : (s.clearStatus v).werr = (s.werr && !v.getLsbD 3) := rfl
@[simp] theorem State.clearStatus_errCode (s : State) (v : Word) : (s.clearStatus v).errCode = s.errCode := rfl
@[simp] theorem State.clearStatus_src (s : State) (v : Word) : (s.clearStatus v).src = s.src := rfl
@[simp] theorem State.clearStatus_dst (s : State) (v : Word) : (s.clearStatus v).dst = s.dst := rfl
@[simp] theorem State.clearStatus_len (s : State) (v : Word) : (s.clearStatus v).len = s.len := rfl
@[simp] theorem State.clearStatus_outlen (s : State) (v : Word) : (s.clearStatus v).outlen = s.outlen := rfl
@[simp] theorem State.clearStatus_failcnt (s : State) (v : Word) : (s.clearStatus v).failcnt = s.failcnt := rfl
@[simp] theorem State.clearStatus_xneg (s : State) (v : Word) : (s.clearStatus v).xneg = s.xneg := rfl
@[simp] theorem State.clearStatus_yneg (s : State) (v : Word) : (s.clearStatus v).yneg = s.yneg := rfl
@[simp] theorem State.clearStatus_mem (s : State) (v : Word) : (s.clearStatus v).mem = s.mem := rfl
@[simp] theorem State.clearStatus_phase (s : State) (v : Word) : (s.clearStatus v).phase = s.phase := rfl
@[simp] theorem State.clearStatus_inReset (s : State) (v : Word) : (s.clearStatus v).inReset = s.inReset := rfl
@[simp] theorem State.clearStatus_cfg (s : State) (v : Word) : (s.clearStatus v).cfg = s.cfg := rfl
@[simp] theorem State.clearStatus_schedule (s : State) (v : Word) : (s.clearStatus v).schedule = s.schedule := rfl
@[simp] theorem State.clearStatus_rdata (s : State) (v : Word) : (s.clearStatus v).rdata = s.rdata := rfl
@[simp] theorem State.clearStatus_draws (s : State) (v : Word) : (s.clearStatus v).draws = s.draws := rfl

/-! ### State.setCtrl -/

@[simp] theorem State.setCtrl_regA (s : State) (v : Word) : (s.setCtrl v).regA = s.regA := rfl
@[simp] theorem State.setCtrl_regE (s : State) (v : Word) : (s.setCtrl v).regE = s.regE := rfl
@[simp] theorem State.setCtrl_regM (s : State) (v : Word) : (s.setCtrl v).regM = s.regM := rfl
@[simp] theorem State.setCtrl_regR (s : State) (v : Word) : (s.setCtrl v).regR = s.regR := rfl
@[simp] theorem State.setCtrl_regX (s : State) (v : Word) : (s.setCtrl v).regX = s.regX := rfl
@[simp] theorem State.setCtrl_regY (s : State) (v : Word) : (s.setCtrl v).regY = s.regY := rfl
@[simp] theorem State.setCtrl_ie (s : State) (v : Word) : (s.setCtrl v).ie = v.getLsbD 0 := rfl
@[simp] theorem State.setCtrl_cmd (s : State) (v : Word) : (s.setCtrl v).cmd = s.cmd := rfl
@[simp] theorem State.setCtrl_done (s : State) (v : Word) : (s.setCtrl v).done = s.done := rfl
@[simp] theorem State.setCtrl_err (s : State) (v : Word) : (s.setCtrl v).err = s.err := rfl
@[simp] theorem State.setCtrl_werr (s : State) (v : Word) : (s.setCtrl v).werr = s.werr := rfl
@[simp] theorem State.setCtrl_errCode (s : State) (v : Word) : (s.setCtrl v).errCode = s.errCode := rfl
@[simp] theorem State.setCtrl_src (s : State) (v : Word) : (s.setCtrl v).src = s.src := rfl
@[simp] theorem State.setCtrl_dst (s : State) (v : Word) : (s.setCtrl v).dst = s.dst := rfl
@[simp] theorem State.setCtrl_len (s : State) (v : Word) : (s.setCtrl v).len = s.len := rfl
@[simp] theorem State.setCtrl_outlen (s : State) (v : Word) : (s.setCtrl v).outlen = s.outlen := rfl
@[simp] theorem State.setCtrl_failcnt (s : State) (v : Word) : (s.setCtrl v).failcnt = s.failcnt := rfl
@[simp] theorem State.setCtrl_xneg (s : State) (v : Word) : (s.setCtrl v).xneg = s.xneg := rfl
@[simp] theorem State.setCtrl_yneg (s : State) (v : Word) : (s.setCtrl v).yneg = s.yneg := rfl
@[simp] theorem State.setCtrl_mem (s : State) (v : Word) : (s.setCtrl v).mem = s.mem := rfl
@[simp] theorem State.setCtrl_phase (s : State) (v : Word) : (s.setCtrl v).phase = s.phase := rfl
@[simp] theorem State.setCtrl_inReset (s : State) (v : Word) : (s.setCtrl v).inReset = s.inReset := rfl
@[simp] theorem State.setCtrl_cfg (s : State) (v : Word) : (s.setCtrl v).cfg = s.cfg := rfl
@[simp] theorem State.setCtrl_schedule (s : State) (v : Word) : (s.setCtrl v).schedule = s.schedule := rfl
@[simp] theorem State.setCtrl_rdata (s : State) (v : Word) : (s.setCtrl v).rdata = s.rdata := rfl
@[simp] theorem State.setCtrl_draws (s : State) (v : Word) : (s.setCtrl v).draws = s.draws := rfl

/-! ### State.putBezout -/

@[simp] theorem State.putBezout_regA (s : State) (t : Bezout) : (s.putBezout t).regA = s.regA := rfl
@[simp] theorem State.putBezout_regE (s : State) (t : Bezout) : (s.putBezout t).regE = s.regE := rfl
@[simp] theorem State.putBezout_regM (s : State) (t : Bezout) : (s.putBezout t).regM = s.regM := rfl
@[simp] theorem State.putBezout_regR (s : State) (t : Bezout) : (s.putBezout t).regR = t.g := rfl
@[simp] theorem State.putBezout_regX (s : State) (t : Bezout) : (s.putBezout t).regX = t.x.natAbs := rfl
@[simp] theorem State.putBezout_regY (s : State) (t : Bezout) : (s.putBezout t).regY = t.y.natAbs := rfl
@[simp] theorem State.putBezout_ie (s : State) (t : Bezout) : (s.putBezout t).ie = s.ie := rfl
@[simp] theorem State.putBezout_cmd (s : State) (t : Bezout) : (s.putBezout t).cmd = s.cmd := rfl
@[simp] theorem State.putBezout_done (s : State) (t : Bezout) : (s.putBezout t).done = s.done := rfl
@[simp] theorem State.putBezout_err (s : State) (t : Bezout) : (s.putBezout t).err = s.err := rfl
@[simp] theorem State.putBezout_werr (s : State) (t : Bezout) : (s.putBezout t).werr = s.werr := rfl
@[simp] theorem State.putBezout_errCode (s : State) (t : Bezout) : (s.putBezout t).errCode = s.errCode := rfl
@[simp] theorem State.putBezout_src (s : State) (t : Bezout) : (s.putBezout t).src = s.src := rfl
@[simp] theorem State.putBezout_dst (s : State) (t : Bezout) : (s.putBezout t).dst = s.dst := rfl
@[simp] theorem State.putBezout_len (s : State) (t : Bezout) : (s.putBezout t).len = s.len := rfl
@[simp] theorem State.putBezout_outlen (s : State) (t : Bezout) : (s.putBezout t).outlen = s.outlen := rfl
@[simp] theorem State.putBezout_failcnt (s : State) (t : Bezout) : (s.putBezout t).failcnt = s.failcnt := rfl
@[simp] theorem State.putBezout_xneg (s : State) (t : Bezout) : (s.putBezout t).xneg = signBit t.x := rfl
@[simp] theorem State.putBezout_yneg (s : State) (t : Bezout) : (s.putBezout t).yneg = signBit t.y := rfl
@[simp] theorem State.putBezout_mem (s : State) (t : Bezout) : (s.putBezout t).mem = s.mem := rfl
@[simp] theorem State.putBezout_phase (s : State) (t : Bezout) : (s.putBezout t).phase = s.phase := rfl
@[simp] theorem State.putBezout_inReset (s : State) (t : Bezout) : (s.putBezout t).inReset = s.inReset := rfl
@[simp] theorem State.putBezout_cfg (s : State) (t : Bezout) : (s.putBezout t).cfg = s.cfg := rfl
@[simp] theorem State.putBezout_schedule (s : State) (t : Bezout) : (s.putBezout t).schedule = s.schedule := rfl
@[simp] theorem State.putBezout_rdata (s : State) (t : Bezout) : (s.putBezout t).rdata = s.rdata := rfl
@[simp] theorem State.putBezout_draws (s : State) (t : Bezout) : (s.putBezout t).draws = s.draws := rfl

/-! ### State.abandon -/

@[simp] theorem State.abandon_regA (s : State) : s.abandon.regA = s.regA := rfl
@[simp] theorem State.abandon_regE (s : State) : s.abandon.regE = s.regE := rfl
@[simp] theorem State.abandon_regM (s : State) : s.abandon.regM = s.regM := rfl
@[simp] theorem State.abandon_regR (s : State) : s.abandon.regR = s.regR := rfl
@[simp] theorem State.abandon_regX (s : State) : s.abandon.regX = s.regX := rfl
@[simp] theorem State.abandon_regY (s : State) : s.abandon.regY = s.regY := rfl
@[simp] theorem State.abandon_ie (s : State) : s.abandon.ie = s.ie := rfl
@[simp] theorem State.abandon_cmd (s : State) : s.abandon.cmd = s.cmd := rfl
@[simp] theorem State.abandon_done (s : State) : s.abandon.done = s.done := rfl
@[simp] theorem State.abandon_err (s : State) : s.abandon.err = s.err := rfl
@[simp] theorem State.abandon_werr (s : State) : s.abandon.werr = s.werr := rfl
@[simp] theorem State.abandon_errCode (s : State) : s.abandon.errCode = s.errCode := rfl
@[simp] theorem State.abandon_src (s : State) : s.abandon.src = s.src := rfl
@[simp] theorem State.abandon_dst (s : State) : s.abandon.dst = s.dst := rfl
@[simp] theorem State.abandon_len (s : State) : s.abandon.len = s.len := rfl
@[simp] theorem State.abandon_outlen (s : State) : s.abandon.outlen = s.outlen := rfl
@[simp] theorem State.abandon_failcnt (s : State) : s.abandon.failcnt = s.failcnt := rfl
@[simp] theorem State.abandon_xneg (s : State) : s.abandon.xneg = s.xneg := rfl
@[simp] theorem State.abandon_yneg (s : State) : s.abandon.yneg = s.yneg := rfl
@[simp] theorem State.abandon_mem (s : State) : s.abandon.mem = s.mem.scramble s.abandonedRange.1 s.abandonedRange.2 s.draws := rfl
@[simp] theorem State.abandon_phase (s : State) : s.abandon.phase = s.phase := rfl
@[simp] theorem State.abandon_inReset (s : State) : s.abandon.inReset = s.inReset := rfl
@[simp] theorem State.abandon_cfg (s : State) : s.abandon.cfg = s.cfg := rfl
@[simp] theorem State.abandon_schedule (s : State) : s.abandon.schedule = s.schedule := rfl
@[simp] theorem State.abandon_rdata (s : State) : s.abandon.rdata = s.rdata := rfl
@[simp] theorem State.abandon_draws (s : State) : s.abandon.draws = s.draws + s.abandonedRange.2 := rfl

/-! ### State.resetRegs -/

@[simp] theorem State.resetRegs_regA (s : State) : s.resetRegs.regA = 0 := rfl
@[simp] theorem State.resetRegs_regE (s : State) : s.resetRegs.regE = 0 := rfl
@[simp] theorem State.resetRegs_regM (s : State) : s.resetRegs.regM = 0 := rfl
@[simp] theorem State.resetRegs_regR (s : State) : s.resetRegs.regR = 0 := rfl
@[simp] theorem State.resetRegs_regX (s : State) : s.resetRegs.regX = 0 := rfl
@[simp] theorem State.resetRegs_regY (s : State) : s.resetRegs.regY = 0 := rfl
@[simp] theorem State.resetRegs_ie (s : State) : s.resetRegs.ie = false := rfl
@[simp] theorem State.resetRegs_cmd (s : State) : s.resetRegs.cmd = 0 := rfl
@[simp] theorem State.resetRegs_done (s : State) : s.resetRegs.done = false := rfl
@[simp] theorem State.resetRegs_err (s : State) : s.resetRegs.err = false := rfl
@[simp] theorem State.resetRegs_werr (s : State) : s.resetRegs.werr = false := rfl
@[simp] theorem State.resetRegs_errCode (s : State) : s.resetRegs.errCode = .noError := rfl
@[simp] theorem State.resetRegs_src (s : State) : s.resetRegs.src = 0 := rfl
@[simp] theorem State.resetRegs_dst (s : State) : s.resetRegs.dst = 0 := rfl
@[simp] theorem State.resetRegs_len (s : State) : s.resetRegs.len = 0 := rfl
@[simp] theorem State.resetRegs_outlen (s : State) : s.resetRegs.outlen = 0 := rfl
@[simp] theorem State.resetRegs_failcnt (s : State) : s.resetRegs.failcnt = 0 := rfl
@[simp] theorem State.resetRegs_xneg (s : State) : s.resetRegs.xneg = false := rfl
@[simp] theorem State.resetRegs_yneg (s : State) : s.resetRegs.yneg = false := rfl
@[simp] theorem State.resetRegs_mem (s : State) : s.resetRegs.mem = s.mem := rfl
@[simp] theorem State.resetRegs_phase (s : State) : s.resetRegs.phase = .idle := rfl
@[simp] theorem State.resetRegs_inReset (s : State) : s.resetRegs.inReset = s.inReset := rfl
@[simp] theorem State.resetRegs_cfg (s : State) : s.resetRegs.cfg = s.cfg := rfl
@[simp] theorem State.resetRegs_schedule (s : State) : s.resetRegs.schedule = s.schedule := rfl
@[simp] theorem State.resetRegs_rdata (s : State) : s.resetRegs.rdata = s.rdata := rfl
@[simp] theorem State.resetRegs_draws (s : State) : s.resetRegs.draws = s.draws := rfl

/-! ### State.setBig -/

@[simp] theorem State.setBig_ie (s : State) (r : BigReg) (v : Nat) : (s.setBig r v).ie = s.ie := by cases r <;> rfl
@[simp] theorem State.setBig_cmd (s : State) (r : BigReg) (v : Nat) : (s.setBig r v).cmd = s.cmd := by cases r <;> rfl
@[simp] theorem State.setBig_done (s : State) (r : BigReg) (v : Nat) : (s.setBig r v).done = s.done := by cases r <;> rfl
@[simp] theorem State.setBig_err (s : State) (r : BigReg) (v : Nat) : (s.setBig r v).err = s.err := by cases r <;> rfl
@[simp] theorem State.setBig_werr (s : State) (r : BigReg) (v : Nat) : (s.setBig r v).werr = s.werr := by cases r <;> rfl
@[simp] theorem State.setBig_errCode (s : State) (r : BigReg) (v : Nat) : (s.setBig r v).errCode = s.errCode := by cases r <;> rfl
@[simp] theorem State.setBig_src (s : State) (r : BigReg) (v : Nat) : (s.setBig r v).src = s.src := by cases r <;> rfl
@[simp] theorem State.setBig_dst (s : State) (r : BigReg) (v : Nat) : (s.setBig r v).dst = s.dst := by cases r <;> rfl
@[simp] theorem State.setBig_len (s : State) (r : BigReg) (v : Nat) : (s.setBig r v).len = s.len := by cases r <;> rfl
@[simp] theorem State.setBig_outlen (s : State) (r : BigReg) (v : Nat) : (s.setBig r v).outlen = s.outlen := by cases r <;> rfl
@[simp] theorem State.setBig_failcnt (s : State) (r : BigReg) (v : Nat) : (s.setBig r v).failcnt = s.failcnt := by cases r <;> rfl
@[simp] theorem State.setBig_xneg (s : State) (r : BigReg) (v : Nat) : (s.setBig r v).xneg = s.xneg := by cases r <;> rfl
@[simp] theorem State.setBig_yneg (s : State) (r : BigReg) (v : Nat) : (s.setBig r v).yneg = s.yneg := by cases r <;> rfl
@[simp] theorem State.setBig_mem (s : State) (r : BigReg) (v : Nat) : (s.setBig r v).mem = s.mem := by cases r <;> rfl
@[simp] theorem State.setBig_phase (s : State) (r : BigReg) (v : Nat) : (s.setBig r v).phase = s.phase := by cases r <;> rfl
@[simp] theorem State.setBig_inReset (s : State) (r : BigReg) (v : Nat) : (s.setBig r v).inReset = s.inReset := by cases r <;> rfl
@[simp] theorem State.setBig_cfg (s : State) (r : BigReg) (v : Nat) : (s.setBig r v).cfg = s.cfg := by cases r <;> rfl
@[simp] theorem State.setBig_schedule (s : State) (r : BigReg) (v : Nat) : (s.setBig r v).schedule = s.schedule := by cases r <;> rfl
@[simp] theorem State.setBig_rdata (s : State) (r : BigReg) (v : Nat) : (s.setBig r v).rdata = s.rdata := by cases r <;> rfl
@[simp] theorem State.setBig_draws (s : State) (r : BigReg) (v : Nat) : (s.setBig r v).draws = s.draws := by cases r <;> rfl

theorem State.big_setBig (s : State) (r q : BigReg) (v : Nat) :
    (s.setBig r v).big q = if q = r then v else s.big q := by cases r <;> cases q <;> rfl

@[simp] theorem State.big_setBig_same (s : State) (r : BigReg) (v : Nat) : (s.setBig r v).big r = v := by
  cases r <;> rfl

@[simp] theorem State.setBig_big (s : State) (r : BigReg) : s.setBig r (s.big r) = s := by cases r <;> rfl

@[simp] theorem State.setBig_setBig (s : State) (r : BigReg) (v w : Nat) : (s.setBig r v).setBig r w = s.setBig r w := by
  cases r <;> rfl

@[simp] theorem State.big_accept (s : State) (w : Word) (r : BigReg) : (s.accept w).big r = s.big r := by cases r <;> rfl
@[simp] theorem State.big_finish (s : State) (r : BigReg) : s.finish.big r = s.big r := by cases r <;> rfl
@[simp] theorem State.big_raiseError (s : State) (c : ErrCode) (r : BigReg) : (s.raiseError c).big r = s.big r := by cases r <;> rfl
@[simp] theorem State.big_answer (s : State) (w : Word) (r : BigReg) : (s.answer w).big r = s.big r := by cases r <;> rfl
@[simp] theorem State.big_answerFree (s : State) (r : BigReg) : s.answerFree.big r = s.big r := by cases r <;> rfl
@[simp] theorem State.big_dropWrite (s : State) (r : BigReg) : s.dropWrite.big r = s.big r := by cases r <;> rfl
@[simp] theorem State.big_clearStatus (s : State) (v : Word) (r : BigReg) : (s.clearStatus v).big r = s.big r := by cases r <;> rfl
@[simp] theorem State.big_setCtrl (s : State) (v : Word) (r : BigReg) : (s.setCtrl v).big r = s.big r := by cases r <;> rfl
@[simp] theorem State.big_abandon (s : State) (r : BigReg) : s.abandon.big r = s.big r := by cases r <;> rfl
@[simp] theorem State.big_resetRegs (s : State) (r : BigReg) : s.resetRegs.big r = 0 := by cases r <;> rfl
@[simp] theorem State.resetRegs_resetRegs (s : State) : s.resetRegs.resetRegs = s.resetRegs := rfl

@[simp] theorem bigRegOfIndex_bigRegIndex (r : BigReg) : bigRegOfIndex (bigRegIndex r) = r := by cases r <;> rfl

theorem bigRegIndex_le (r : BigReg) : bigRegIndex r ≤ 5 := by cases r <;> decide

end Sys2Proof.Machine
end

