-- ==== Sys2Proof/Laws/Bus.lean ====
section
/-! SUPPORT. Where the address map places an offset, and what a host access can do, said once. -/

namespace Sys2Proof.Machine

/-- The address without its two lowest bits (R61). -/
theorem word_offset (n : Nat) : n - n % 4 = 4 * (n / 4) := by omega

theorem locate_congr (a b : BusAddr) (h : a.toNat / 4 = b.toNat / 4) : locate a = locate b := by
  unfold locate
  rw [word_offset, word_offset, h]

theorem locate_control (a : BusAddr) (h : a.toNat < 0x1000) : locate a = controlLocation (a.toNat / 4) := by
  unfold locate
  rw [word_offset]
  simp only
  rw [if_pos (by omega), show 4 * (a.toNat / 4) / 4 = a.toNat / 4 by omega]

theorem locate_big (a : BusAddr) (r : BigReg) (j : Nat) (hj : j < 128)
    (h : a.toNat / 4 = (0x1000 + 0x200 * bigRegIndex r + 4 * j) / 4) : locate a = .big r j := by
  have hr := bigRegIndex_le r
  have h4 : a.toNat - a.toNat % 4 = 0x1000 + 0x200 * bigRegIndex r + 4 * j := by omega
  unfold locate
  rw [h4]
  simp only
  rw [if_neg (by omega), if_pos (by omega),
    show (0x1000 + 0x200 * bigRegIndex r + 4 * j - 0x1000) / 0x200 = bigRegIndex r by omega,
    show (0x1000 + 0x200 * bigRegIndex r + 4 * j - 0x1000) % 0x200 / 4 = j by omega, bigRegOfIndex_bigRegIndex]

theorem locate_bigWindow (a : BusAddr) (h : 0x1000 ≤ a.toNat) (h' : a.toNat < 0x1C00) :
    locate a = .big (bigRegOfIndex ((a.toNat - 0x1000) / 0x200)) ((a.toNat - 0x1000) % 0x200 / 4) := by
  unfold locate
  rw [word_offset]
  simp only
  rw [if_neg (by omega), if_pos (by omega), show (4 * (a.toNat / 4) - 0x1000) / 0x200 = (a.toNat - 0x1000) / 0x200 by omega,
    show (4 * (a.toNat / 4) - 0x1000) % 0x200 / 4 = (a.toNat - 0x1000) % 0x200 / 4 by omega]

theorem locate_reserved (a : BusAddr) (h : 0x1C00 ≤ a.toNat) (h' : a.toNat < 0x10000) : locate a = .reserved := by
  unfold locate
  rw [word_offset]
  simp only
  rw [if_neg (by omega), if_neg (by omega), if_pos (by omega)]

theorem locate_buffer (a : BusAddr) (h : 0x10000 ≤ a.toNat) : locate a = .buf ((a.toNat - 0x10000) / 4) := by
  unfold locate
  rw [word_offset]
  simp only
  rw [if_neg (by omega), if_neg (by omega), if_neg (by omega),
    show (4 * (a.toNat / 4) - 0x10000) / 4 = (a.toNat - 0x10000) / 4 by omega]

/-- What a host read can do: answer 0 in reset, answer a fresh draw, or answer the current value. -/
theorem hostRead_cases (s : State) (a : BusAddr) :
    (s.inReset = true ∧ s.hostRead a = s.answer 0) ∨
    (s.inReset = false ∧ s.phase = .busy ∧ unspecifiedWhileBusy s.cfg (locate a) = true ∧
      s.hostRead a = s.answerFree) ∨
    (s.inReset = false ∧ (s.phase = .idle ∨ unspecifiedWhileBusy s.cfg (locate a) = false) ∧
      s.hostRead a = s.answer (s.readLocation (locate a))) := by
  unfold State.hostRead State.busy
  cases hr : s.inReset <;> cases hp : s.phase <;> cases hu : unspecifiedWhileBusy s.cfg (locate a) <;> simp

/-- What a host write can do: nothing in reset, be dropped with WERR, or take its effect. -/
theorem hostWrite_cases (s : State) (a : BusAddr) (v : Word) :
    (s.inReset = true ∧ s.hostWrite a v = s) ∨
    (s.inReset = false ∧ s.phase = .busy ∧ droppedWhileBusy (locate a) = true ∧ s.hostWrite a v = s.dropWrite) ∨
    (s.inReset = false ∧ (s.phase = .idle ∨ droppedWhileBusy (locate a) = false) ∧
      s.hostWrite a v = s.writeLocation v (locate a)) := by
  unfold State.hostWrite State.busy
  cases hr : s.inReset <;> cases hp : s.phase <;> cases hu : droppedWhileBusy (locate a) <;> simp

/-- What a read changes: the answer, and the count of draws where the answer is one. -/
theorem hostRead_frame (s : State) (a : BusAddr) :
    s.hostRead a = { s with rdata := (s.hostRead a).rdata, draws := (s.hostRead a).draws } := by
  rcases hostRead_cases s a with ⟨_, h⟩ | ⟨_, _, _, h⟩ | ⟨_, _, h⟩ <;> rw [h] <;> rfl

end Sys2Proof.Machine
end

