-- ==== Sys2Proof/Laws/Exec.lean ====
section
/-! SUPPORT. What a command and a step can do, said once: each command's outcome, and the cases of a step. -/

namespace Sys2Proof.Machine

/-- `Run(c)` of a command (R97). -/
def runCommand (i : Instr) (s : State) : Except ErrCode State :=
  match i with
  | .gcd => runGcd s
  | .xgcd => runXgcd s
  | .modinv => runModinv s
  | .modexp => runModexp s
  | .encrypt => runEncrypt s
  | .decrypt => runDecrypt s

/-- Every command answers a next state: the completion of its run. -/
theorem exec_eq (i : Instr) (s : State) : exec i s = .next (s.complete (runCommand i s)) := by cases i <;> rfl

/-- The two completions. -/
theorem complete_cases (s : State) (r : Except ErrCode State) :
    (∃ c, r = .error c ∧ s.complete r = s.raiseError c) ∨ (∃ t, r = .ok t ∧ s.complete r = t.finish) := by
  cases r with
  | error c => exact .inl ⟨c, rfl, rfl⟩
  | ok t => exact .inr ⟨t, rfl, rfl⟩

/-- A command either raises a code and writes nothing, or its writes take place (R18, R97). -/
theorem exec_cases (i : Instr) (s t : State) (h : exec i s = .next t) :
    (∃ c, runCommand i s = .error c ∧ t = s.raiseError c) ∨ (∃ u, runCommand i s = .ok u ∧ t = u.finish) := by
  rw [exec_eq] at h
  cases h
  exact complete_cases s _

/-- MODINV's three outcomes, in the order of its tests (R128). -/
theorem runModinv_cases (s : State) :
    ((extEuclid s.regA s.regM).g ≠ 1 → runModinv s = .error .noInverse) ∧
    ((extEuclid s.regA s.regM).g = 1 → s.regM = 0 → runModinv s = .error .modZero) ∧
    ((extEuclid s.regA s.regM).g = 1 → s.regM ≠ 0 →
      runModinv s = .ok { s with regR := ((extEuclid s.regA s.regM).x % (s.regM : Int)).toNat }) := by
  unfold runModinv modInverse
  refine ⟨fun h => ?_, fun h h' => ?_, fun h h' => ?_⟩
  · rw [if_pos h]; rfl
  · rw [if_neg (by simp [h]), if_pos h']; rfl
  · rw [if_neg (by simp [h]), if_neg h']; rfl

/-- What ENCRYPT's run can answer. -/
theorem runEncrypt_cases (s : State) :
    (∃ c, runEncrypt s = .error c ∧ (c = .modZero ∨ c = .range ∨ c = .overlap ∨ c = .encOverflow)) ∨
    (∃ m, runEncrypt s = .ok { s with mem := m, outlen := BitVec.ofNat 32 s.encLen, failcnt := 0 } ∧
      s.regM ≠ 0 ∧ s.src.toNat + s.len.toNat ≤ s.cfg.bufBytes ∧ s.dst.toNat + s.encLen ≤ s.cfg.bufBytes ∧
      overlaps s.src.toNat s.len.toNat s.dst.toNat s.encLen = false ∧
      encryptBlocks (keyBytes s.cfg) s.regE s.regM s.src.toNat s.dst.toNat 0
        (blocks s.len.toNat (keyBytes s.cfg - 1)) s.mem = .ok m) := by
  unfold runEncrypt
  split
  · exact .inl ⟨_, rfl, by simp⟩
  · split
    · exact .inl ⟨_, rfl, by simp⟩
    · split
      · exact .inl ⟨_, rfl, by simp⟩
      · rename_i h1 h2 h3
        simp only [rangeOk, Bool.not_eq_true', Bool.and_eq_false_iff, decide_eq_false_iff_not, not_or, not_not] at h2
        cases hm : encryptBlocks (keyBytes s.cfg) s.regE s.regM s.src.toNat s.dst.toNat 0
          (blocks s.len.toNat (keyBytes s.cfg - 1)) s.mem with
        | error c => exact .inl ⟨c, rfl, by simp [encryptBlocks_error _ _ _ _ _ _ _ _ _ hm]⟩
        | ok m => exact .inr ⟨m, rfl, h1, h2.1, h2.2, by simpa using h3, rfl⟩

/-- What DECRYPT's run can answer. -/
theorem runDecrypt_cases (s : State) :
    (∃ c, runDecrypt s = .error c ∧ (c = .malformed ∨ c = .modZero ∨ c = .range ∨ c = .overlap)) ∨
    (∃ acc, runDecrypt s = .ok { s with
        mem := acc.mem, outlen := BitVec.ofNat 32 acc.pos, failcnt := BitVec.ofNat 32 acc.fails } ∧
      s.len.toNat % keyBytes s.cfg = 0 ∧
      s.regM ≠ 0 ∧ s.src.toNat + s.len.toNat ≤ s.cfg.bufBytes ∧ s.dst.toNat + s.len.toNat ≤ s.cfg.bufBytes ∧
      overlaps s.src.toNat s.len.toNat s.dst.toNat s.len.toNat = false ∧
      acc = decryptBlocks (keyBytes s.cfg) s.regE s.regM s.src.toNat s.dst.toNat 0
        (s.len.toNat / keyBytes s.cfg) { mem := s.mem, pos := 0, fails := 0 }) := by
  unfold runDecrypt
  split
  · exact .inl ⟨_, rfl, by simp⟩
  · split
    · exact .inl ⟨_, rfl, by simp⟩
    · split
      · exact .inl ⟨_, rfl, by simp⟩
      · split
        · exact .inl ⟨_, rfl, by simp⟩
        · rename_i h0 h1 h2 h3
          simp only [rangeOk, Bool.not_eq_true', Bool.and_eq_false_iff, decide_eq_false_iff_not, not_or, not_not] at h2
          exact .inr ⟨_, rfl, by simpa using h0, h1, h2.1, h2.2, by simpa using h3, rfl⟩

/-- What a command that succeeds may write: the results, the buffer and the two counts, nothing else (R26). -/
theorem runCommand_frame (i : Instr) (s u : State) (h : runCommand i s = .ok u) :
    u = { s with
      regR := u.regR, regX := u.regX, regY := u.regY, xneg := u.xneg, yneg := u.yneg
      mem := u.mem, outlen := u.outlen, failcnt := u.failcnt } := by
  cases i <;> simp only [runCommand] at h
  · cases h; rfl
  · cases h; rfl
  · have hm := runModinv_cases s
    by_cases h1 : (extEuclid s.regA s.regM).g = 1
    · by_cases h2 : s.regM = 0
      · rw [hm.2.1 h1 h2] at h; cases h
      · rw [hm.2.2 h1 h2] at h; cases h; rfl
    · rw [hm.1 h1] at h; cases h
  · unfold runModexp at h
    split at h <;> cases h
    rfl
  · rcases runEncrypt_cases s with ⟨c, h', _⟩ | ⟨m, h', _⟩ <;> rw [h'] at h <;> cases h
    rfl
  · rcases runDecrypt_cases s with ⟨c, h', _⟩ | ⟨m, h', _⟩ <;> rw [h'] at h <;> cases h
    rfl

/-- What a reset turn can do. -/
theorem driveReset_cases (s : State) (b : Bool) :
    (b = true ∧ s.inReset = false ∧ s.driveReset b = { s.abandon.resetRegs with inReset := true }) ∨
    (b = false ∧ s.inReset = true ∧ s.driveReset b = { s.resetRegs with inReset := false }) ∨
    (b = s.inReset ∧ s.driveReset b = s) := by
  unfold State.driveReset
  cases b <;> cases hr : s.inReset <;> simp

/-- The state with its next turn taken off the schedule. -/
def State.popTurn (s : State) : State := { s with schedule := s.schedule.tail }

/-- A reset turn either changes the level of reset or changes nothing but the schedule (log 8). -/
theorem resets_or_kept (s : State) (b : Bool) (rest : List Turn) (h : s.schedule = .reset b :: rest) :
    s.resets ∨ s.popTurn.driveReset b = s.popTurn := by
  rcases driveReset_cases s.popTurn b with ⟨hb, hr, _⟩ | ⟨hb, hr, _⟩ | ⟨_, hk⟩
  · have hr' : s.inReset = false := hr
    exact .inl ⟨rest, by rw [h, hb, hr']; rfl⟩
  · have hr' : s.inReset = true := hr
    exact .inl ⟨rest, by rw [h, hb, hr']; rfl⟩
  · exact .inr hk

/-- Everything a step can do. -/
theorem step_cases (s t : State) (h : step s = .next t) :
    (s.enginesTurn ∧ s.phase = .idle ∧ t = s.popTurn) ∨
    (s.enginesTurn ∧ s.phase = .busy ∧ ∃ i, decode s.cmd = .ok i ∧ exec i s.popTurn = .next t) ∨
    (s.enginesTurn ∧ s.phase = .busy ∧ (∃ why, decode s.cmd = .error why) ∧ t = s.popTurn.raiseError .illegalCmd) ∨
    (∃ a rest, s.schedule = .read a :: rest ∧ t = s.popTurn.hostRead a) ∨
    (∃ a v rest, s.schedule = .write a v :: rest ∧ t = s.popTurn.hostWrite a v) ∨
    (∃ b rest, s.schedule = .reset b :: rest ∧ t = s.popTurn.driveReset b) := by
  have engine : ∀ u : State, u = s.popTurn → s.enginesTurn → engineTurn u = .next t →
      (s.enginesTurn ∧ s.phase = .idle ∧ t = s.popTurn) ∨
      (s.enginesTurn ∧ s.phase = .busy ∧ ∃ i, decode s.cmd = .ok i ∧ exec i s.popTurn = .next t) ∨
      (s.enginesTurn ∧ s.phase = .busy ∧ (∃ why, decode s.cmd = .error why) ∧
        t = s.popTurn.raiseError .illegalCmd) := by
    intro u hu he hs
    subst hu
    unfold engineTurn at hs
    have hp : s.popTurn.phase = s.phase := rfl
    have hc : s.popTurn.cmd = s.cmd := rfl
    rw [hp] at hs
    cases hph : s.phase with
    | idle =>
      rw [hph] at hs
      cases hs
      exact .inl ⟨he, rfl, rfl⟩
    | busy =>
      rw [hph] at hs
      simp only [completeCommand, hc] at hs
      cases hd : decode s.cmd with
      | ok i => rw [hd] at hs; exact .inr (.inl ⟨he, rfl, i, rfl, hs⟩)
      | error w => rw [hd] at hs; cases hs; exact .inr (.inr ⟨he, rfl, ⟨w, rfl⟩, rfl⟩)
  unfold step nextTurn at h
  cases hsch : s.schedule with
  | nil =>
    rw [hsch] at h
    have hpop : s = s.popTurn := by
      unfold State.popTurn
      rw [hsch, List.tail_nil, ← hsch]
    rcases engine s hpop (.inl hsch) h with h | h | h
    · exact .inl h
    · exact .inr (.inl h)
    · exact .inr (.inr (.inl h))
  | cons x rest =>
    have hpop : { s with schedule := rest } = s.popTurn := by
      unfold State.popTurn
      rw [hsch, List.tail_cons]
    rw [hsch] at h
    simp only [hpop] at h
    cases x with
    | read a => cases h; exact .inr (.inr (.inr (.inl ⟨a, rest, rfl, rfl⟩)))
    | write a v => cases h; exact .inr (.inr (.inr (.inr (.inl ⟨a, v, rest, rfl, rfl⟩))))
    | reset b => cases h; exact .inr (.inr (.inr (.inr (.inr ⟨b, rest, rfl, rfl⟩))))
    | engine =>
      rcases engine s.popTurn rfl (.inr ⟨rest, hsch⟩) h with h | h | h
      · exact .inl h
      · exact .inr (.inl h)
      · exact .inr (.inr (.inl h))

/-- A step on a host read. -/
theorem step_read (s : State) (a : BusAddr) (rest : List Turn) (h : s.schedule = .read a :: rest) :
    step s = .next (({ s with schedule := rest } : State).hostRead a) := by
  simp [step, nextTurn, h, takeTurn]

/-- A step on a host write. -/
theorem step_write (s : State) (a : BusAddr) (v : Word) (rest : List Turn) (h : s.schedule = .write a v :: rest) :
    step s = .next (({ s with schedule := rest } : State).hostWrite a v) := by
  simp [step, nextTurn, h, takeTurn]

/-- A step on a turn of the reset input. -/
theorem step_reset (s : State) (b : Bool) (rest : List Turn) (h : s.schedule = .reset b :: rest) :
    step s = .next (({ s with schedule := rest } : State).driveReset b) := by
  simp [step, nextTurn, h, takeTurn]

/-- One more step of a run. -/
theorem core_run_succ (n : Nat) (s t : State) (h : step s = .next t) :
    Sys2Proof.core.run (n + 1) s = Sys2Proof.core.run n t := by
  have gen : ∀ (M : Host.Core) (x y : M.State), M.step x = .next y → M.run (n + 1) x = M.run n y := by
    intro M x y hxy
    simp only [Host.Core.run, hxy]
  exact gen Sys2Proof.core s t h

end Sys2Proof.Machine
end

