-- ==== Sys2Proof/Laws/PerInstr.lean ====
section
/-! SUPPORT. A statement about every command's word, one lemma per command (30_encoding.md R90 to R92). -/

namespace Sys2Proof.Laws

/-- The command's word has `OP` its opcode, between `0x1` and `0x6`, `STRICT` and `RSV` zero, and decodes to it. -/
def CommandWord.Statement (i : Instr) : Prop :=
  i.wf = true ∧ bits (encode i).toNat 3 0 = opcode i ∧ 1 ≤ opcode i ∧ opcode i ≤ 6 ∧
    bits (encode i).toNat 4 4 = 0 ∧ bits (encode i).toNat 31 5 = 0 ∧
    decodeTableWord 32 (encode i).toNat = some i

theorem CommandWord.gcd : CommandWord.Statement .gcd := by unfold CommandWord.Statement; decide

theorem CommandWord.xgcd : CommandWord.Statement .xgcd := by unfold CommandWord.Statement; decide

theorem CommandWord.modinv : CommandWord.Statement .modinv := by unfold CommandWord.Statement; decide

theorem CommandWord.modexp : CommandWord.Statement .modexp := by unfold CommandWord.Statement; decide

theorem CommandWord.encrypt : CommandWord.Statement .encrypt := by unfold CommandWord.Statement; decide

theorem CommandWord.decrypt : CommandWord.Statement .decrypt := by unfold CommandWord.Statement; decide

end Sys2Proof.Laws
end

