-- ==== Sys2Proof/Laws/Words.lean ====
section
/-! SUPPORT. What a write to one word of a big register puts into it, bit by bit, and where the word offset of an
address lies in the map. -/

namespace Sys2Proof.Machine

/-- The three pieces of a word write, by weight. -/
theorem putBigWord_eq (w v j : Nat) (data : Word) :
    putBigWord w v j data =
      2 ^ (32 * j) * (2 ^ min 32 (w - 32 * j) * (v / 2 ^ (32 * j + min 32 (w - 32 * j)))
        + data.toNat % 2 ^ min 32 (w - 32 * j)) + v % 2 ^ (32 * j) := by
  unfold putBigWord
  simp only
  rw [pow_add]
  ring

/-- A word write sets the bits of the word below `W` to the data's and keeps every other bit (R64, R65). -/
theorem testBit_putBigWord (w v j : Nat) (data : Word) (b : Nat) :
    (putBigWord w v j data).testBit b =
      if 32 * j ≤ b ∧ b < 32 * j + min 32 (w - 32 * j) then data.getLsbD (b - 32 * j) else v.testBit b := by
  rw [putBigWord_eq, Nat.testBit_two_pow_mul_add _ (Nat.mod_lt _ (by positivity))]
  by_cases h : b < 32 * j
  · rw [if_pos h, if_neg (by omega), Nat.testBit_mod_two_pow]
    simp [h]
  · rw [if_neg h, Nat.testBit_two_pow_mul_add _ (Nat.mod_lt _ (by positivity))]
    by_cases h2 : b - 32 * j < min 32 (w - 32 * j)
    · rw [if_pos h2, if_pos (by omega), Nat.testBit_mod_two_pow]
      simp only [h2, decide_true, Bool.true_and]
      rfl
    · rw [if_neg h2, if_neg (by omega), Nat.testBit_div_two_pow]
      congr 1
      omega

/-- A word write keeps a register's value below `2^W` (R25). -/
theorem putBigWord_lt (w v j : Nat) (data : Word) (hv : v < 2 ^ w) : putBigWord w v j data < 2 ^ w := by
  apply Nat.lt_pow_two_of_testBit
  intro b hb
  rw [testBit_putBigWord, if_neg (by omega)]
  exact Nat.testBit_lt_two_pow (lt_of_lt_of_le hv (Nat.pow_le_pow_right (by omega) hb))

/-- The offset of a location's word is a multiple of four. -/
theorem wordOffset_eq (a : BusAddr) : wordOffset a = 4 * (a.toNat / 4) := by
  unfold wordOffset
  omega

/-- A control register's word number is below 12; above that is reserved space (R63). -/
theorem controlLocation_reserved (n : Nat) (h : 12 ≤ n) : controlLocation n = .reserved := by
  unfold controlLocation
  split <;> first | omega | rfl

/-- Where the map places an address, by its word offset (R63). -/
theorem locate_cases (a : BusAddr) :
    (wordOffset a < 0x1000 ∧ locate a = controlLocation (wordOffset a / 4)) ∨
    (0x1000 ≤ wordOffset a ∧ wordOffset a < 0x1C00 ∧
      ∃ r j, j < 128 ∧ wordOffset a = bigOffset r j ∧ locate a = .big r j) ∨
    (0x1C00 ≤ wordOffset a ∧ wordOffset a < 0x10000 ∧ locate a = .reserved) ∨
    (0x10000 ≤ wordOffset a ∧ ∃ k, wordOffset a = 0x10000 + 4 * k ∧ locate a = .buf k) := by
  have e := wordOffset_eq a
  by_cases h1 : a.toNat < 0x1000
  · refine .inl ⟨by omega, ?_⟩
    rw [locate_control a h1]
    congr 1
    omega
  · by_cases h2 : a.toNat < 0x1C00
    · refine .inr (.inl ⟨by omega, by omega, _, _, by omega, ?_, locate_bigWindow a (by omega) h2⟩)
      have hr : bigRegIndex (bigRegOfIndex ((a.toNat - 0x1000) / 0x200)) = (a.toNat - 0x1000) / 0x200 := by
        have : (a.toNat - 0x1000) / 0x200 < 6 := by omega
        generalize (a.toNat - 0x1000) / 0x200 = n at *
        interval_cases n <;> rfl
      unfold bigOffset
      rw [hr]
      omega
    · by_cases h3 : a.toNat < 0x10000
      · exact .inr (.inr (.inl ⟨by omega, by omega, locate_reserved a (by omega) h3⟩))
      · exact .inr (.inr (.inr ⟨by omega, _, by omega, locate_buffer a (by omega)⟩))

/-- The control register at a word offset. -/
theorem locate_of_control (a : BusAddr) (n : Nat) (hn : n < 12) (h : wordOffset a = 4 * n) :
    locate a = controlLocation n := by
  have e := wordOffset_eq a
  rw [locate_control a (by omega), show a.toNat / 4 = n by omega]

/-- The big-register word at a word offset. -/
theorem locate_of_big (a : BusAddr) (r : BigReg) (j : Nat) (hj : j < 128) (h : wordOffset a = bigOffset r j) :
    locate a = .big r j := by
  have e := wordOffset_eq a
  unfold bigOffset at h
  exact locate_big a r j hj (by omega)

/-- The buffer word at a word offset. -/
theorem locate_of_buffer (a : BusAddr) (k : Nat) (h : wordOffset a = 0x10000 + 4 * k) : locate a = .buf k := by
  have e := wordOffset_eq a
  rw [locate_buffer a (by omega), show (a.toNat - 0x10000) / 4 = k by omega]

/-- `NW` words hold `W` bits, and a legal build has between 1 and 128 of them (R7, R9). -/
theorem numWords_bounds (p : Params) (h : p.wf = true) :
    0 < numWords p ∧ numWords p ≤ 128 ∧ 32 * (numWords p - 1) < p.keyBits ∧ p.keyBits ≤ 32 * numWords p := by
  simp only [Params.wf, Params.keyBitsLegal, Params.bufBytesLegal, Bool.and_eq_true, beq_iff_eq,
    decide_eq_true_eq] at h
  unfold numWords ceilDiv
  omega

end Sys2Proof.Machine
end

