-- ==== Sys2Proof/Tests/Slice0.lean ====
section
/-! SUPPORT. Small tests: the WellFormed smoke test, decoding, one step per command, the bus, and a witness for the
hypotheses of every obligation that has some. Expected values are those of spec/95_test_vectors.md (the section is
named at each group) or worked by hand from the rule named. -/

namespace Sys2Proof.Tests

open Sys2Proof Sys2Proof.Machine

/-! ### The smoke test of WellFormed (R7, R10, R176) -/

theorem test_default_build_is_legal : Config.default.wf = true := by decide

theorem test_width_not_multiple_of_8_refused : (Params.mk 1020 4096).wf = false := by decide

theorem test_width_8_refused : (Params.mk 8 4096).wf = false := by decide

theorem test_width_4104_refused : (Params.mk 4104 4096).wf = false := by decide

theorem test_buffer_not_multiple_of_4_refused : (Params.mk 1024 4098).wf = false := by decide

theorem test_buffer_0_refused : (Params.mk 1024 0).wf = false := by decide

theorem test_buffer_65540_refused : (Params.mk 1024 65540).wf = false := by decide

theorem test_extreme_builds_are_legal : (Params.mk 16 4).wf = true ∧ (Params.mk 4096 65536).wf = true := by decide

theorem test_modulus_bounds : modulusWf ⟨16, 4096⟩ 255 = false ∧ modulusWf ⟨16, 4096⟩ 256 = true ∧
    modulusWf ⟨16, 4096⟩ 65535 = true ∧ modulusWf ⟨16, 4096⟩ 65536 = false := by decide

/-! ### Decoding (R90, R92, R93; 95 section 2.7), words written out bit by bit: RSV, STRICT, OP -/

theorem test_decode_gcd : decode 0b000000000000000000000000000_0_0001#32 = .ok .gcd := by decide

theorem test_decode_xgcd : decode 0b000000000000000000000000000_0_0010#32 = .ok .xgcd := by decide

theorem test_decode_modinv : decode 0b000000000000000000000000000_0_0011#32 = .ok .modinv := by decide

theorem test_decode_modexp : decode 0b000000000000000000000000000_0_0100#32 = .ok .modexp := by decide

theorem test_decode_encrypt : decode 0b000000000000000000000000000_0_0101#32 = .ok .encrypt := by decide

theorem test_decode_decrypt : decode 0b000000000000000000000000000_0_0110#32 = .ok .decrypt := by decide

theorem test_decode_illegal : decode 0b000000000000000000000000000_0_0000#32 = .error .opcode ∧
    decode 0b000000000000000000000000000_0_0111#32 = .error .opcode ∧
    decode 0b000000000000000000000000000_0_1111#32 = .error .opcode ∧
    decode 0b000000000000000000000000000_1_0000#32 = .error .strictMode ∧
    decode 0b000000000000000000000000000_1_0001#32 = .error .strictMode ∧
    decode 0b000000000000000000000000001_0_0100#32 = .error .reservedBits ∧
    decode 0b100000000000000000000000000_0_0100#32 = .error .reservedBits := by decide

theorem test_table_words : [1, 2, 3, 4, 5, 6].map (decodeTableWord 32) =
    [some .gcd, some .xgcd, some .modinv, some .modexp, some .encrypt, some .decrypt] ∧
    decodeTableWord 32 0 = none ∧ decodeTableWord 40 (2 ^ 32 + 1) = none := by decide

theorem test_placed_words_run_next : ∀ w ∈ [1, 2, 3, 4, 5, 6], ∀ i, decodeTableWord 32 w = some i →
    (nextOf (step (State.reset.withFetchWord 32 w))).map State.cmd = some (encode i) ∧
    (nextOf (step (State.reset.withFetchWord 32 w))).map State.done = some true := by decide

/-! ### States for one step -/

/-- An idle engine with `W = 16` and the three operands. -/
def engine16 (a e m : Nat) : State :=
  { State.reset with regA := a, regE := e, regM := m, cfg := { keyBits := 16, bufBytes := 4096 } }

/-- The same with a message: operands of the block commands and the bytes from `src` on. -/
def message16 (e m src len dst : Nat) (bs : List Byte) : State :=
  { engine16 0 e m with
    src := BitVec.ofNat 32 src, len := BitVec.ofNat 32 len, dst := BitVec.ofNat 32 dst
    mem := Memory.writeBytes [] src bs }

/-- What the next step of a state leaves, seen through `f`. -/
def after {α : Type} (o : Host.Outcome State Fault Refusal) (f : State → α) : Option α := (nextOf o).map f

/-! ### The commands (95 sections 2.1 to 2.6) -/

theorem test_gcd : after (exec .gcd (engine16 12 0 18)) (fun t => (t.regR, t.statusWord)) = some (6, 0x002#32) := by
  decide +kernel

theorem test_gcd_zero : after (exec .gcd (engine16 0 0 0)) State.regR = some 0 := by decide

theorem test_xgcd : after (exec .xgcd (engine16 17 0 3120)) (fun t => (t.regR, t.regX, t.regY, t.xsignWord)) =
    some (1, 367, 2, 1#32) := by decide

theorem test_xgcd_negative_y : after (exec .xgcd (engine16 240 0 46)) (fun t => (t.regR, t.regX, t.regY)) =
      some (2, 9, 47) ∧
    after (exec .xgcd (engine16 46 0 240)) (fun t => (t.regX, t.regY, t.xsignWord)) = some (47, 9, 2#32) := by decide

theorem test_modinv : after (exec .modinv (engine16 17 0 3120)) (fun t => (t.regR, t.statusWord)) =
    some (2753, 0x002#32) := by decide

theorem test_modinv_errors :
    after (exec .modinv { engine16 4 0 8 with regR := 7 }) (fun t => (t.regR, t.statusWord)) = some (7, 0x206#32) ∧
    after (exec .modinv (engine16 1 0 0)) State.statusWord = some 0x306#32 ∧
    after (exec .modinv (engine16 7 0 0)) State.statusWord = some 0x206#32 := by decide

theorem test_modexp : after (exec .modexp (engine16 65 17 3233)) (fun t => (t.regR, t.statusWord)) =
    some (2790, 0x002#32) := by decide

theorem test_modexp_corners : after (exec .modexp (engine16 7 0 1)) State.regR = some 1 ∧
    after (exec .modexp (engine16 7 5 1)) State.regR = some 0 ∧
    after (exec .modexp (engine16 5 3 0)) State.statusWord = some 0x306#32 := by decide

theorem test_encrypt : after (exec .encrypt (message16 17 3233 0 2 0x100 [0x68, 0x69]))
      (fun t => (t.mem.readBytes 0x100 4, t.outlen, t.failcnt, t.statusWord)) =
    some ([0x08, 0x7A, 0x0C, 0x6B], 4, 0, 0x002#32) := by decide

theorem test_encrypt_checks :
    after (exec .encrypt (message16 17 3233 0 1 4094 [0x41])) (fun t => t.mem.readBytes 4094 2) = some [0x0A, 0xE6] ∧
    after (exec .encrypt (message16 17 3233 0 1 4095 [0x41])) State.statusWord = some 0x506#32 ∧
    after (exec .encrypt (message16 17 3233 0 2 1 [0x41, 0x42])) State.statusWord = some 0x606#32 ∧
    after (exec .encrypt (message16 17 0 5000 0 0 [])) State.statusWord = some 0x306#32 := by decide

theorem test_decrypt : after (exec .decrypt (message16 2753 3233 0 4 0x100 [0x08, 0x7A, 0x0C, 0x6B]))
      (fun t => (t.mem.readBytes 0x100 2, t.outlen, t.failcnt, t.statusWord)) =
    some ([0x68, 0x69], 2, 0, 0x002#32) := by decide

theorem test_decrypt_strips_and_checks :
    after (exec .decrypt (message16 2753 3233 0 4 0x100 [0x00, 0x00, 0xFF, 0xFF]))
      (fun t => (t.mem.readBytes 0x100 2, t.outlen)) = some ([0x01, 0x11], 2) ∧
    after (exec .decrypt (message16 2753 0 0 3 0x100 [0x0A, 0xE6, 0x00])) State.statusWord = some 0x406#32 ∧
    after (exec .decrypt (message16 2753 3233 0 2 1 [0x0A, 0xE6])) State.statusWord = some 0x606#32 := by decide

/-! ### The bus (95 sections 2.8, 2.9) -/

theorem test_high_data_bits_discarded : ((engine16 0 0 0).hostWrite 0x01000 0xABCD1234).regA = 0x1234 ∧
    (((engine16 0 0 0).hostWrite 0x01000 0xABCD1234).hostRead 0x01004).rdata = 0 := by decide

theorem test_partial_top_word : ({ State.reset with cfg := ⟨40, 4096⟩ }.hostWrite 0x01004 0xFFFFFFFF).regA =
    0xFF00000000 := by decide

theorem test_load_big_register_lines : ldBig ⟨64, 4096⟩ .M 0x1FFFFFFFFFFFFFFF =
    [.wr 0x01400 (.lit 0xFFFFFFFF), .wr 0x01404 (.lit 0x1FFFFFFF)] := by decide

theorem test_buffer_lanes : ((message16 0 0 0 0 0 [0x0A, 0xE6, 0x12, 0x34]).hostRead 0x10003).rdata = 0x3412E60A ∧
    ((engine16 0 0 0).hostWrite 0x10004 0x44332211).mem = [(4, 0x11), (5, 0x22), (6, 0x33), (7, 0x44)] := by decide

theorem test_load_buffer_lines : ldBuf 3 [0xAA, 0xBB] 9 =
    [.rd 0x10000 9, .wr 0x10000 (.patched 9 0x00FFFFFF 0xAA000000),
     .rd 0x10004 9, .wr 0x10004 (.patched 9 0xFFFFFF00 0x000000BB)] := by decide

theorem test_wait_loops_until_idle : (System.mk ⟨wait 0 1, 1, [0, 0x001]⟩ (engine16 0 0 0)).hostMove =
      .next ⟨⟨wait 0 1, 0, [0, 0x001]⟩, engine16 0 0 0⟩ ∧
    (System.mk ⟨wait 0 1, 1, [0, 0x002]⟩ (engine16 0 0 0)).hostMove =
      .next ⟨⟨wait 0 1, 2, [0, 0x002]⟩, engine16 0 0 0⟩ := ⟨rfl, rfl⟩

theorem test_host_program_runs_a_command :
    (match System.run [false, true] ⟨⟨issue .gcd, 0, []⟩, engine16 12 0 18⟩ with
      | .next y => some (y.host.pos, y.engine.regR, y.engine.cmd)
      | .fault _ => none
      | .refused _ => none) = some (1, 6, 1#32) := by decide

/-- STATUS `0x206`: DONE, ERR and `NO_INVERSE`. -/
def failed206 : State := { engine16 4 0 8 with done := true, err := true, errCode := .noInverse }

theorem test_status_writes : (failed206.hostWrite 0x014 0x00000004).statusWord = 0x202 ∧
    (failed206.hostWrite 0x014 0xFFFFFFFF).statusWord = 0x200 ∧
    (failed206.hostWrite 0x010 0x00000001).statusWord = 0x001 ∧
    ({ failed206 with werr := true }.hostWrite 0x010 0x00000001).statusWord = 0x009 := by decide

/-- The numbers of the error codes as STATUS holds them (R201). -/
theorem test_error_code_numbers : [ErrCode.noError, .illegalCmd, .noInverse, .modZero, .malformed, .range, .overlap,
      .encOverflow].map (fun c => ({ State.reset with errCode := c } : State).statusWord) =
    [0x000, 0x100, 0x200, 0x300, 0x400, 0x500, 0x600, 0x700] := by decide

theorem test_interrupt : ({ failed206 with ie := true } : State).irq = true ∧ failed206.irq = false ∧
    (failed206.hostWrite 0x00C 1).irq = true ∧ ({ failed206 with ie := true }.hostWrite 0x014 2).irq = false := by
  decide +kernel

/-- A `GCD` of 12 and 18 in flight. -/
def busyGcd : State := (engine16 12 0 18).accept 1

theorem test_busy_accesses : busyGcd.hostWrite 0x01000 5 = { busyGcd with werr := true } ∧
    busyGcd.hostWrite 0x010 4 = { busyGcd with werr := true } ∧
    busyGcd.hostWrite 0x00C 1 = { busyGcd with ie := true } ∧ busyGcd.hostWrite 0x024 7 = busyGcd ∧
    (busyGcd.hostRead 0x01000).rdata = 12 ∧ (busyGcd.hostRead 0x014).rdata = 0x001 := by decide

theorem test_busy_reads_are_draws : (busyGcd.hostRead 0x01600).rdata = Config.freeWord 0 ∧
    ((busyGcd.hostRead 0x01600).hostRead 0x10000).rdata = Config.freeWord 1 := ⟨rfl, rfl⟩

theorem test_reset_level_kept : failed206.driveReset false = failed206 ∧
    ({ failed206 with inReset := true } : State).driveReset true = { failed206 with inReset := true } ∧
    after (step failed206) id = some failed206 := by decide

/-- One draw per byte of the abandoned range, in order (R230, U5). -/
theorem test_abandoned_bytes : (((message16 17 3233 0 1 4094 [0x41]).accept 5).driveReset true).mem =
      [(0, 0x41), (4094, Config.freeByte 0), (4095, Config.freeByte 1)] ∧
    (((message16 17 3233 0 1 4094 [0x41]).accept 5).driveReset true).draws = 2 := ⟨rfl, rfl⟩

theorem test_reset_abandons : (busyGcd.driveReset true).phase = .idle ∧ (busyGcd.driveReset true).regA = 0 ∧
    (busyGcd.driveReset true).done = false ∧ ((busyGcd.driveReset true).hostRead 0x000).rdata = 0 := by decide

/-! ### Witnesses: a concrete input that meets the hypotheses of each obligation -/

/-- A state with one turn to come. -/
def turn (s : State) (t : Turn) : State := { s with schedule := [t] }

theorem witness_EncodeDecodeRoundTrip : Instr.wf .decrypt = true := by decide

theorem witness_DecodeAcceptsExactlyTheTable : decode 6 = .ok .decrypt ∧ encode .decrypt = 6 ∧
    bits (0x00000010#32).toNat 31 4 ≠ 0 ∧ bits (0#32).toNat 3 0 = 0 ∧ 7 ≤ bits (7#32).toNat 3 0 := by decide

theorem witness_StepRunsDecodedCommand : (turn busyGcd .engine).phase = .busy ∧ decode (turn busyGcd .engine).cmd =
    .ok .gcd ∧ (turn busyGcd .engine).schedule = [.engine] ∧ busyGcd.schedule = [] ∧ failed206.phase = .idle ∧
    (turn failed206 .engine).schedule = [.engine] ∧ failed206.schedule = [] := by decide

theorem witness_CmdWriteIsAcceptedOnlyWhileIdle : (turn failed206 (.write 0x013 0xFFFFFFFF)).schedule =
    [.write 0x013 0xFFFFFFFF] ∧ wordOffset 0x010 = 0x010 ∧ wordOffset 0x013 = 0x010 ∧ failed206.inReset = false ∧
    failed206.phase = .idle ∧ busyGcd.inReset = false ∧ busyGcd.phase = .busy := by decide

theorem witness_IllegalWordEndsWithIllegalCmd : [0x10#32, 0x80000004#32, 0#32, 7#32, 15#32].all (fun w =>
    decide (({ failed206 with schedule := [.write 0x010 w, .engine] } : State).schedule = [.write 0x010 w, .engine] ∧
      wordOffset 0x010 = 0x010 ∧ failed206.inReset = false ∧ failed206.phase = .idle ∧
      (bits w.toNat 31 4 ≠ 0 ∨ bits w.toNat 3 0 = 0 ∨ 7 ≤ bits w.toNat 3 0))) = true := by decide

theorem witness_CommandsReportTheFirstError_arithmetic : (∃ why, decode 0 = .error why) ∧
    (∃ t, exec .gcd (engine16 0 0 0) = .next t) ∧ Nat.gcd (engine16 4 0 8).regA 8 ≠ 1 ∧
    Nat.gcd (engine16 0 0 0).regA 0 ≠ 1 ∧ Nat.gcd (engine16 1 0 0).regA 0 = 1 ∧ (engine16 1 0 0).regM = 0 :=
  ⟨⟨.opcode, by decide⟩, ⟨_, rfl⟩, by decide, by decide, by decide, rfl⟩

theorem witness_CommandsReportTheFirstError_encrypt :
    (let s := message16 17 3233 0 1 4095 [0x41]
     s.regM ≠ 0 ∧ s.src.toNat + s.len.toNat ≤ s.cfg.bufBytes ∧ s.cfg.bufBytes < s.dst.toNat + s.encLen) ∧
    (let s := message16 17 3233 4095 2 0 []
     s.cfg.bufBytes < s.src.toNat + s.len.toNat ∧ s.dst.toNat + s.encLen ≤ s.cfg.bufBytes) ∧
    (let s := message16 17 3233 3 2 0 []
     s.regM ≠ 0 ∧ s.src.toNat + s.len.toNat ≤ s.cfg.bufBytes ∧ s.dst.toNat + s.encLen ≤ s.cfg.bufBytes ∧
      shareByte s.src.toNat s.len.toNat s.dst.toNat s.encLen) :=
  ⟨by decide, by decide, by decide, by decide, by decide, 3, by decide⟩

theorem witness_CommandsReportTheFirstError_decrypt :
    (message16 0 0 0 3 0 []).len.toNat % keyBytes (message16 0 0 0 3 0 []).cfg ≠ 0 ∧
    (message16 0 0 0 2 0 []).len.toNat % keyBytes (message16 0 0 0 2 0 []).cfg = 0 ∧
    (message16 0 0 0 2 0 []).regM = 0 ∧
    (let s := message16 17 3233 4096 2 0 []
     s.len.toNat % keyBytes s.cfg = 0 ∧ s.regM ≠ 0 ∧ s.cfg.bufBytes < s.src.toNat + s.len.toNat) ∧
    (let s := message16 17 3233 0 2 1 []
     s.len.toNat % keyBytes s.cfg = 0 ∧ s.regM ≠ 0 ∧ s.src.toNat + s.len.toNat ≤ s.cfg.bufBytes ∧
      s.dst.toNat + s.len.toNat ≤ s.cfg.bufBytes ∧ shareByte s.src.toNat s.len.toNat s.dst.toNat s.len.toNat) :=
  ⟨by decide, by decide, by decide, by decide, by decide, by decide, by decide, by decide, 1, by decide⟩

theorem witness_ExtEuclidFollowsTheRecursion : 0 < 1 ∧ extEuclid 5 1 = ⟨0, 1, 1⟩ := by decide

theorem witness_BezoutMagnitudesFit : 16 ≤ 16 ∧ 65535 < 2 ^ 16 ∧ 65534 < 2 ^ 16 ∧
    extEuclid 65535 65534 = ⟨1, -1, 1⟩ := by decide

theorem witness_ModinvCompletes : (∀ s ∈ [engine16 17 0 3120, engine16 5 0 1, engine16 0 0 1],
    Nat.gcd s.regA s.regM = 1 ∧ s.regM ≠ 0) ∧ Nat.gcd (engine16 7 0 0).regA 0 ≠ 1 ∧
    Nat.gcd (engine16 1 0 0).regA 0 = 1 := by decide

theorem witness_ModexpCompletes : (engine16 7 0 1).regM ≠ 0 ∧ (engine16 7 5 1).regE ≠ 0 ∧
    (engine16 5 3 0).regM = 0 := by decide

theorem witness_ArithmeticCommandsFrame : (∃ t, exec .xgcd (engine16 17 0 3120) = .next t ∧ t.err = false) ∧
    ∃ t, exec .modinv (engine16 4 0 8) = .next t ∧ t.err ≠ (engine16 4 0 8).err :=
  ⟨⟨_, rfl, by decide⟩, _, rfl, by decide⟩

theorem witness_BigEndianRoundTrip : 2 ^ (8 * 2) ≤ 65536 ∧ 65535 < 2 ^ (8 * 2) ∧ 0 < 2 ^ (8 * 0) ∧ 2 ^ (8 * 0) ≤ 1 := by
  decide +kernel

theorem witness_BlocksCoverTheMessage : 1 ≤ 2 ∧ (blocks 3 2)[0]? = some (0, 2) ∧ (blocks 3 2)[1]? = some (2, 1) := by
  decide +kernel

/-- The conditions under which `ENCRYPT` passes its checks, with a destination that ends at the buffer's end. -/
theorem witness_EncryptCompletes :
    let s := message16 17 3233 0 1 4094 [0x41]
    s.cfg.wf = true ∧ s.regM ≠ 0 ∧ s.regM < 2 ^ s.cfg.keyBits ∧ s.src.toNat + s.len.toNat ≤ s.cfg.bufBytes ∧
    s.dst.toNat + s.encLen ≤ s.cfg.bufBytes ∧ ¬ shareByte s.src.toNat s.len.toNat s.dst.toNat s.encLen := by
  refine ⟨by decide, by decide, by decide, by decide, by decide, ?_⟩
  rintro ⟨i, h1, h2, h3, h4⟩
  have e1 : (message16 17 3233 0 1 4094 [0x41]).src.toNat + (message16 17 3233 0 1 4094 [0x41]).len.toNat = 1 := by
    decide +kernel
  have e2 : (message16 17 3233 0 1 4094 [0x41]).dst.toNat = 4094 := by decide
  omega

theorem witness_DecryptCompletes :
    let s := message16 2753 3233 0 2 2 [0x0A, 0xE6]
    s.cfg.wf = true ∧ s.len.toNat % keyBytes s.cfg = 0 ∧ s.regM ≠ 0 ∧ s.regM < 2 ^ s.cfg.keyBits ∧
    s.src.toNat + s.len.toNat ≤ s.cfg.bufBytes ∧ s.dst.toNat + s.len.toNat ≤ s.cfg.bufBytes ∧
    ¬ shareByte s.src.toNat s.len.toNat s.dst.toNat s.len.toNat := by
  refine ⟨by decide, by decide, by decide, by decide, by decide, by decide, ?_⟩
  rintro ⟨i, h1, h2, h3, h4⟩
  have e1 : (message16 2753 3233 0 2 2 [0x0A, 0xE6]).src.toNat + (message16 2753 3233 0 2 2 [0x0A, 0xE6]).len.toNat = 2 := by
    decide +kernel
  have e2 : (message16 2753 3233 0 2 2 [0x0A, 0xE6]).dst.toNat = 2 := by decide
  omega

theorem witness_EmptyMessages : ∀ s ∈ [message16 17 3233 4096 0 4096 [], message16 17 1 0 0 0 []],
    s.len = 0 ∧ s.regM ≠ 0 ∧ s.src.toNat ≤ s.cfg.bufBytes ∧ s.dst.toNat ≤ s.cfg.bufBytes := by decide

theorem witness_BlockCommandsFrame : (∃ t, exec .encrypt (message16 17 3233 0 1 2 [0x41]) = .next t ∧ t.err = false) ∧
    ∃ t, exec .decrypt (message16 17 3233 0 3 2 []) = .next t ∧ t.err ≠ (message16 17 3233 0 3 2 []).err :=
  ⟨⟨_, rfl, by decide⟩, _, rfl, by decide⟩

/-- The source's textbook key is valid (95 S1, S2). -/
theorem textbook_key_is_valid : validKey 3233 17 2753 :=
  ⟨61, 53, by norm_num, by norm_num, by decide, by decide, by decide⟩

theorem witness_ZeroStrippingLoss : validKey 3233 17 2753 ∧ 3233 < 2 ^ (8 * 2) ∧ 1 ≤ [0x41#8].length ∧
    [0x41#8].length ≤ 2 - 1 ∧ beToInt [0x41#8] < 3233 ∧ beToInt [0#8] < 3233 ∧ (∀ b ∈ [0#8], b = 0) :=
  ⟨textbook_key_is_valid, by decide, by decide, by decide, by decide, by decide, by simp⟩

/-- "hi" (95 S13) to be encrypted, and the state that decrypts the ciphertext. -/
def hi : State := message16 17 3233 0 2 0x10 [0x68, 0x69]

def hiEncrypted : State := hi.complete (runEncrypt hi)

def hiBack : State := { hiEncrypted with regE := 2753, src := 0x10, len := 4, dst := 0x20 }

theorem witness_RoundTrip : hi.cfg.wf = true ∧ modulusWf hi.cfg hi.regM = true ∧ validKey hi.regM hi.regE hiBack.regE ∧
    (∀ i off n : Nat, (blocks hi.len.toNat (keyBytes hi.cfg - 1))[i]? = some (off, n) →
      hi.mem.readByte (hi.src.toNat + off) ≠ 0) ∧
    hi.err = false ∧ exec .encrypt hi = .next hiEncrypted ∧ hiEncrypted.err = false ∧
    hiBack.cfg = hi.cfg ∧ hiBack.regM = hi.regM ∧ hiBack.len = hiEncrypted.outlen ∧
    hiBack.mem.readBytes hiBack.src.toNat hiEncrypted.outlen.toNat =
      hiEncrypted.mem.readBytes hi.dst.toNat hiEncrypted.outlen.toNat ∧
    hiBack.err = false ∧ ∃ v, exec .decrypt hiBack = .next v ∧ v.err = false := by
  refine ⟨by decide, by decide, textbook_key_is_valid, ?_, rfl, rfl, by decide, by decide, by decide, by decide,
    by decide, by decide, _, rfl, by decide⟩
  intro i off n h
  have hb : blocks hi.len.toNat (keyBytes hi.cfg - 1) = [(0, 1), (1, 1)] := by decide
  rw [hb] at h
  match i, h with
  | 0, h => cases h; decide
  | 1, h => cases h; decide
  | i + 2, h => simp at h

/-- A `GCD` in flight behind a host read and two host writes, in a state that meets the invariant. -/
def busyGcdAccessed : State :=
  { busyGcd with schedule := [.read 0x01600, .write 0x01000 5, .write 0x014 0xE, .engine] }

theorem busyGcdAccessed_inv : busyGcdAccessed.Inv where
  cfgLegal := by decide
  bigInRange r := by cases r <;> decide
  memWf := by decide
  memBelow := by decide
  outlenInBuf := by decide
  failcntZero := by decide
  noEncOverflow := by decide
  errHasCode := by decide
  busyClear := by decide
  noNegativeZero := by decide
  heldInReset := by decide

theorem witness_EveryStepKeepsTheInvariant : busyGcdAccessed.Inv ∧ ∃ t, step busyGcdAccessed = .next t :=
  ⟨busyGcdAccessed_inv, _, rfl⟩

theorem witness_OperandSnapshot : busyGcdAccessed.Inv ∧ busyGcdAccessed.phase = .busy ∧
    busyGcdAccessed.schedule = [.read 0x01600, .write 0x01000 5, .write 0x014 0xE] ++ .engine :: [] ∧
    ∀ x ∈ [Turn.read 0x01600, .write 0x01000 5, .write 0x014 0xE], x.isAccess = true :=
  ⟨busyGcdAccessed_inv, by decide, by decide, by decide⟩

theorem witness_AccessKeepsTheOutcome : busyGcdAccessed.Inv ∧ busyGcdAccessed.phase = .busy ∧
    busyGcdAccessed.schedule = .read 0x01600 :: [.write 0x01000 5, .write 0x014 0xE, .engine] ∧
    (Turn.read 0x01600).isAccess = true ∧ (Turn.write 0x014 0xE).isAccess = true :=
  ⟨busyGcdAccessed_inv, by decide, by decide, by decide, by decide⟩

theorem witness_AcceptedCommandCompletes : busyGcdAccessed.phase = .busy ∧
    ∀ x ∈ busyGcdAccessed.schedule, x = .engine ∨ x.isAccess = true := by decide

theorem witness_OperandsChangeOnlyByHostWrite :
    (∃ t, step (turn (engine16 1 0 0) (.write 0x01000 2)) = .next t ∧ t.big .A ≠ (engine16 1 0 0).big .A) ∧
    ∃ t, step (turn busyGcd (.reset true)) = .next t ∧ t.big .M ≠ busyGcd.big .M :=
  ⟨⟨_, rfl, by decide⟩, _, rfl, by decide⟩

theorem witness_ResultsChangeOnlyByCommands :
    (∃ t, step (turn busyGcd .engine) = .next t ∧ t.regR ≠ busyGcd.regR) ∧
    (∃ t, step (turn ((engine16 17 0 3120).accept 2) .engine) = .next t ∧ t.xneg ≠ false) ∧
    (∃ t, step (turn (hi.accept 5) .engine) = .next t ∧ t.outlen ≠ hi.outlen) ∧
    ¬ (turn busyGcd .engine).resets :=
  ⟨⟨_, rfl, by decide⟩, ⟨_, rfl, by decide⟩, ⟨_, rfl, by decide⟩, by rintro ⟨r, h⟩; cases h⟩

/-- `ENCRYPT` of one byte whose first output byte stands on `old`. -/
def overByte (old : Byte) : State := { hi with mem := [(0, 0x41), (0x10, old)], len := 1 }

theorem witness_BufferChangesOnlyByItsWriters :
    (∃ t, step (turn (overByte 1) (.write 0x10010 2)) = .next t ∧ t.mem.readByte 0x10 ≠ (overByte 1).mem.readByte 0x10) ∧
    (∃ t, step (turn ((overByte 1).accept 5) .engine) = .next t ∧ t.mem.readByte 0x10 ≠ (overByte 1).mem.readByte 0x10) ∧
    (∃ t, step (turn ({ overByte 1 with mem := [(0, 0x0A), (1, 0xE6), (0x10, 1)], len := 2, regE := 2753 }.accept 6) .engine) =
      .next t ∧ t.mem.readByte 0x10 ≠ 1) ∧
    ∃ t, step (turn ((overByte (Config.freeByte 0 + 1)).accept 5) (.reset true)) = .next t ∧
      t.mem.readByte 0x10 ≠ Config.freeByte 0 + 1 := by
  refine ⟨⟨_, rfl, by decide⟩, ⟨_, rfl, by decide⟩, ⟨_, rfl, by decide⟩, _, rfl, ?_⟩
  show Config.freeByte 0 ≠ Config.freeByte 0 + 1
  generalize Config.freeByte 0 = b
  revert b
  decide

theorem witness_ErrorInformationIsKept :
    (∃ t, step (turn ((engine16 4 0 8).accept 3) .engine) = .next t ∧ t.errCode ≠ .noError) ∧
    (∃ t, step (turn failed206 (.write 0x010 1)) = .next t ∧ t.errCode ≠ failed206.errCode ∧ t.err = false) ∧
    (∃ t, step (turn failed206 (.write 0x014 4)) = .next t ∧ failed206.err = true ∧ t.err = false) :=
  ⟨⟨_, rfl, by decide⟩, ⟨_, rfl, by decide⟩, _, rfl, by decide⟩

theorem witness_WerrReportsDroppedWrites :
    [0x010#17, 0x018#17, 0x01C#17, 0x020#17, 0x01000#17, 0x01BFF#17, 0x10000#17, 0x1FFFF#17].all (fun a =>
      decide (after (step (turn busyGcd (.write a 1))) State.werr = some true)) = true ∧
    after (step (turn { busyGcd with werr := true } (.write 0x014 8))) State.werr = some false := by decide

/-! The addresses at the ends of the ranges the bus statements name. -/

theorem witness_BusyWritesAreDropped :
    [0x010#17, 0x018#17, 0x01C#17, 0x020#17, 0x01000#17, 0x01BFF#17, 0x10000#17, 0x1FFFF#17].all (fun a =>
      decide (after (step (turn busyGcd (.write a 0xF))) id = some { busyGcd with werr := true })) = true ∧
    [0x000#17, 0x008#17, 0x024#17, 0x02C#17, 0x030#17, 0x00FFF#17, 0x01C00#17, 0x0FFFF#17].all (fun a =>
      decide (after (step (turn busyGcd (.write a 0xF))) id = some busyGcd)) = true ∧
    wordOffset 0x00F = 0x00C ∧ wordOffset 0x017 = 0x014 ∧ busyGcd.inReset = false ∧ busyGcd.phase = .busy := by decide

theorem witness_BusyReads :
    [0x01600#17, 0x01BFF#17, 0x024#17, 0x028#17, 0x02C#17, 0x10000#17, 0x10FFF#17].all (fun a =>
      decide (after (step (turn busyGcd (.read a))) State.draws = some 1)) = true ∧
    [0x015FF#17, 0x01C00#17, 0x020#17, 0x030#17, 0x0FFFF#17, 0x11000#17, 0x1FFFF#17, 0x014#17].all (fun a =>
      decide (after (step (turn busyGcd (.read a))) State.draws = some 0)) = true ∧
    busyGcd.inReset = false ∧ busyGcd.phase = .busy := by decide

theorem witness_ReadMapWhileIdle : (turn hi (.read 0x10FFC)).schedule = [.read 0x10FFC] ∧ hi.inReset = false ∧
    hi.phase = .idle ∧ hi.cfg.wf = true ∧ wordOffset 0x10FFC = 0x10000 + 4 * 1023 ∧ 4 * 1023 < hi.cfg.bufBytes ∧
    wordOffset 0x11000 = 0x10000 + 4 * 1024 ∧ wordOffset 0x01BFF = bigOffset .Y 127 ∧
    wordOffset 0x01000 = bigOffset .A 0 ∧ wordOffset 0x02F = 0x02C ∧ wordOffset 0x00FFF = 0x00FFC ∧
    wordOffset 0x0FFFF = 0x0FFFC := by decide

theorem witness_ReadsHaveNoSideEffect : (turn busyGcd (.read 0x01600)).schedule = [.read 0x01600] ∧
    ({ failed206 with schedule := [.read 0x014, .read 0x014] } : State).schedule = .read 0x014 :: .read 0x014 :: [] ∧
    failed206.phase = .idle := by decide

theorem witness_BigRegisterWordWrite : let s := { State.reset with cfg := ⟨40, 4096⟩, regM := 2 ^ 40 - 1 }
    (turn s (.write 0x01407 9)).schedule = [.write 0x01407 9] ∧ s.inReset = false ∧ s.phase = .idle ∧
    s.cfg.wf = true ∧ 1 < numWords s.cfg ∧ wordOffset 0x01407 = bigOffset .M 1 ∧ s.big .M < 2 ^ s.cfg.keyBits := by
  decide +kernel

theorem witness_BufferWordWrite : (turn hi (.write 0x10FFC 9)).schedule = [.write 0x10FFC 9] ∧ hi.inReset = false ∧
    hi.phase = .idle ∧ wordOffset 0x10FFC = 0x10000 + 4 * 1023 ∧ 4 * 1023 < hi.cfg.bufBytes := by decide

theorem witness_WrittenWordsReadBack :
    ({ hi with schedule := [.write 0x10000 9, .read 0x10000] } : State).schedule =
      .write 0x10000 9 :: .read 0x10000 :: [] ∧ hi.inReset = false ∧ hi.phase = .idle ∧ hi.cfg.wf = true ∧
    wordOffset 0x10000 = 0x10000 + 4 * 0 ∧ 4 * 0 < hi.cfg.bufBytes ∧ 0 < numWords hi.cfg ∧
    wordOffset 0x01200 = bigOffset .E 0 ∧ hi.big .E < 2 ^ hi.cfg.keyBits := by decide

theorem witness_IgnoredWrites : hi.inReset = false ∧ hi.phase = .idle ∧
    [0x000#17, 0x004#17, 0x008#17, 0x024#17, 0x028#17, 0x02C#17, 0x030#17, 0x00FFF#17, 0x01C00#17, 0x0FFFF#17,
        0x01600#17, 0x01BFF#17, 0x01004#17, 0x011FF#17, 0x11000#17, 0x1FFFF#17].all (fun a =>
      decide (after (step (turn hi (.write a 0xFFFFFFFF))) id = some hi)) = true ∧
    numWords hi.cfg ≤ 1 ∧ wordOffset 0x01004 = bigOffset .A 1 ∧ 0x10000 + hi.cfg.bufBytes ≤ wordOffset 0x11000 := by
  decide +kernel

theorem witness_StatusWriteOneToClear : ∀ s ∈ [failed206, busyGcd],
    (turn s (.write 0x017 0xE)).schedule = [.write 0x017 0xE] ∧ (turn s (.read 0x014)).schedule = [.read 0x014] ∧
    s.inReset = false ∧ wordOffset 0x017 = 0x014 ∧ wordOffset 0x014 = 0x014 := by decide

theorem witness_ControlAndOperandWrites : hi.inReset = false ∧ hi.phase = .idle ∧ wordOffset 0x00C = 0x00C ∧
    wordOffset 0x018 = 0x018 ∧ wordOffset 0x01C = 0x01C ∧ wordOffset 0x020 = 0x020 ∧
    (turn hi (.write 0x020 9)).schedule = [.write 0x020 9] := by decide

theorem witness_AddressLowBitsIgnored : wordOffset 0x10000 = wordOffset 0x10003 ∧ (0x10000#17) ≠ 0x10003 := by decide

theorem witness_ResetRestoresTheRegisters :
    (turn (hi.accept 5) (.reset true)).schedule = [.reset true] ∧ (hi.accept 5).inReset = false ∧
    ((hi.accept 5).phase = .busy ∧ (hi.accept 5).dst.toNat ≤ 0x10 ∧ 0x10 < (hi.accept 5).cfg.bufBytes ∧
      decode (hi.accept 5).cmd = .ok .encrypt ∧ 0x10 < (hi.accept 5).dst.toNat + (hi.accept 5).encLen) ∧
    (turn { State.reset with inReset := true } (.reset false)).schedule = [.reset false] ∧
    (turn busyGcd (.reset false)).schedule = .reset busyGcd.inReset :: [] ∧
    (turn { State.reset with inReset := true } (.reset true)).schedule = [.reset true] := by decide

theorem witness_AccessesInReset : ({ State.reset with inReset := true } : State).inReset = true ∧
    (turn { State.reset with inReset := true } (.read 0)).schedule = [.read 0] := by decide

theorem witness_InterruptOutput : (turn busyGcd .engine).enginesTurn ∧ busyGcd.phase = .busy ∧
    (turn failed206 (.write 0x010 1)).writesTo 0x010 1 ∧ failed206.phase = .idle ∧
    (turn failed206 (.write 0x014 2)).writesTo 0x014 2 ∧ (2#32).getLsbD 1 = true ∧
    (turn failed206 (.write 0x00C 1)).writesTo 0x00C 1 :=
  ⟨.inr ⟨[], rfl⟩, rfl, ⟨rfl, 0x010, [], rfl, by decide⟩, rfl, ⟨rfl, 0x014, [], rfl, by decide⟩, by decide,
    rfl, 0x00C, [], rfl, by decide⟩

theorem witness_BothOrdersOfARace : busyGcd.phase = .busy ∧ busyGcd.inReset = false ∧ wordOffset 0x014 = 0x014 ∧
    (2#32).getLsbD 1 = true := by decide

theorem witness_LoadBigRegister : hi.inReset = false ∧ hi.phase = .idle ∧ hi.cfg.wf = true ∧
    hi.big .E < 2 ^ hi.cfg.keyBits ∧ 65535 < 2 ^ hi.cfg.keyBits := by decide

end Sys2Proof.Tests
end

section
/-! SUPPORT. The proofs about the host's accesses to STATUS (10_state.md R29). The two rules about an access that the
engine does not withhold hold at every location, idle or busy. -/

namespace Sys2Proof.Machine

/-- Outside reset, a read at a location that stays readable while busy answers the current value (R60, R235). -/
theorem hostRead_eq_answer (s : State) (a : BusAddr) (hr : s.inReset = false)
    (hu : unspecifiedWhileBusy s.cfg (locate a) = false) :
    s.hostRead a = s.answer (s.readLocation (locate a)) := by
  rcases hostRead_cases s a with ⟨hr', _⟩ | ⟨_, _, hu', _⟩ | ⟨_, _, h⟩
  · simp [hr] at hr'
  · simp [hu] at hu'
  · exact h

/-- Outside reset, a write at a location that stays writable while busy takes its effect (R60, R236). -/
theorem hostWrite_eq_writeLocation (s : State) (a : BusAddr) (v : Word) (hr : s.inReset = false)
    (hd : droppedWhileBusy (locate a) = false) : s.hostWrite a v = s.writeLocation v (locate a) := by
  rcases hostWrite_cases s a v with ⟨hr', _⟩ | ⟨_, _, hd', _⟩ | ⟨_, _, h⟩
  · simp [hr] at hr'
  · simp [hd] at hd'
  · exact h

/-- STATUS is the control register at offset `0x014` (R63). -/
theorem locate_status (a : BusAddr) (h : wordOffset a = 0x014) : locate a = .status :=
  locate_of_control a 5 (by decide) h

/-- The write-one-to-clear rule bit by bit, as a choice on each bit of the data (R29). -/
theorem State.clearStatus_eq (s : State) (v : Word) :
    s.clearStatus v = { s with
      done := if v.getLsbD 1 then false else s.done
      err := if v.getLsbD 2 then false else s.err
      werr := if v.getLsbD 3 then false else s.werr } := by
  simp [State.clearStatus, Bool.and_comm]

/-- Outside reset, idle or busy, a write to STATUS is the write-one-to-clear rule and no more (R29). -/
theorem hostWrite_status (s : State) (a : BusAddr) (v : Word) (hr : s.inReset = false)
    (ha : wordOffset a = 0x014) : s.hostWrite a v = s.clearStatus v := by
  have hl := locate_status a ha
  rw [hostWrite_eq_writeLocation s a v hr (by rw [hl]; rfl), hl]
  rfl

/-- Outside reset, idle or busy, a read of STATUS answers its word (R29). -/
theorem hostRead_status (s : State) (a : BusAddr) (hr : s.inReset = false) (ha : wordOffset a = 0x014) :
    s.hostRead a = s.answer s.statusWord := by
  have hl := locate_status a ha
  rw [hostRead_eq_answer s a hr (by rw [hl]; rfl), hl]
  rfl

/-- Settles O47: STATUS is withheld from the host neither while idle nor while busy, so a write to it is the
write-one-to-clear rule and a read answers the word. -/
theorem statusWriteOneToClear : Obligations.StatusWriteOneToClear := by
  intro s addr v rest hr ha
  constructor
  · intro hs
    rw [step_write s addr v rest hs, hostWrite_status { s with schedule := rest } addr v hr ha, State.clearStatus_eq]
  · intro hs
    rw [step_read s addr rest hs, hostRead_status { s with schedule := rest } addr hr ha]
    rfl

end Sys2Proof.Machine
end

section
/-! SUPPORT. The proofs about the address map as the host sees it: the word an address names (20_memory.md R61) and a
write to one word of a big register (R64, R65). -/

namespace Sys2Proof.Machine

/-- Addresses of the same bus word are the same location (R61). -/
theorem locate_eq_of_wordOffset_eq (a b : BusAddr) (h : wordOffset a = wordOffset b) : locate a = locate b := by
  rw [wordOffset_eq, wordOffset_eq] at h
  exact locate_congr a b (by omega)

/-- A host read depends on the address through its location only (R60). -/
theorem hostRead_congr (s : State) (a b : BusAddr) (h : locate a = locate b) : s.hostRead a = s.hostRead b := by
  unfold State.hostRead
  rw [h]

/-- A host write depends on the address through its location only (R60). -/
theorem hostWrite_congr (s : State) (a b : BusAddr) (v : Word) (h : locate a = locate b) :
    s.hostWrite a v = s.hostWrite b v := by
  unfold State.hostWrite
  rw [h]

/-- Settles O50: a step on an access depends on the address through its location only, and the two addresses have the
same one. -/
theorem addressLowBitsIgnored : Obligations.AddressLowBitsIgnored := by
  intro s a b v rest h
  have hl := locate_eq_of_wordOffset_eq a b h
  constructor
  · rw [step_read _ a rest rfl, step_read _ b rest rfl, hostRead_congr _ a b hl]
  · rw [step_write _ a v rest rfl, step_write _ b v rest rfl, hostWrite_congr _ a b v hl]

/-- Outside reset, a write made while idle takes its effect at every location (R60). -/
theorem hostWrite_of_idle (s : State) (a : BusAddr) (v : Word) (hr : s.inReset = false) (hp : s.phase = .idle) :
    s.hostWrite a v = s.writeLocation v (locate a) := by
  rcases hostWrite_cases s a v with ⟨hr', _⟩ | ⟨_, hp', _⟩ | ⟨_, _, h⟩
  · simp [hr] at hr'
  · simp [hp] at hp'
  · exact h

/-- A host-writable big register takes a word below `NW` (R64, R65). -/
theorem writeLocation_big (s : State) (v : Word) (r : BigReg) (j : Nat) (hw : hostWritable r = true)
    (hj : j < numWords s.cfg) :
    s.writeLocation v (.big r j) = s.setBig r (putBigWord s.cfg.keyBits (s.big r) j v) := by
  simp [State.writeLocation, hw, hj]

/-- The host writes `A`, `E` and `M` (R23). -/
theorem hostWritable_of_operand (r : BigReg) (h : r = .A ∨ r = .E ∨ r = .M) : hostWritable r = true := by
  rcases h with rfl | rfl | rfl <;> rfl

/-- Below `W`, a word write gives the bits of word `j` the data's and keeps every other bit: the window of
`testBit_putBigWord` is cut off at `W`, so below `W` it is the whole word. -/
theorem testBit_putBigWord_of_lt (w v j : Nat) (data : Word) (b : Nat) (hb : b < w) :
    (putBigWord w v j data).testBit b = if b / 32 = j then data.getLsbD (b % 32) else v.testBit b := by
  rw [testBit_putBigWord]
  by_cases h : b / 32 = j
  · rw [if_pos (by omega), if_pos h, show b - 32 * j = b % 32 by omega]
  · rw [if_neg (by omega), if_neg h]

/-- Settles O43: the idle write puts `putBigWord` of the old value into the register and does nothing else, and
`putBigWord` is known bit by bit. -/
theorem bigRegisterWordWrite : Obligations.BigRegisterWordWrite := by
  intro s addr v rest r j hs hr hp hwf hop hj ha hv
  obtain ⟨-, hNW, -, -⟩ := numWords_bounds s.cfg hwf
  have hl : locate addr = .big r j := locate_of_big addr r j (by omega) ha
  refine ⟨putBigWord s.cfg.keyBits (s.big r) j v, ?_, putBigWord_lt _ _ j v hv,
    fun b hb => testBit_putBigWord_of_lt _ _ j v b hb⟩
  rw [step_write s addr v rest hs, hostWrite_of_idle { s with schedule := rest } addr v hr hp, hl,
    writeLocation_big { s with schedule := rest } v r j (hostWritable_of_operand r hop) hj]
  cases r <;> rfl

end Sys2Proof.Machine
end

section
/-! SUPPORT. The proofs about command words: the decoder's two outcomes over all words (30_encoding.md R92 to R94), and
a command word from the host's write to CMD to the engine's turn (R93, R95, R97). -/

namespace Sys2Proof

/-- `w` is outside the opcode map: a bit of `STRICT` or `RSV` is set, or `OP` is `0x0` or `0x7` to `0xF` (R93). -/
def outsideOpcodeMap (w : Word) : Prop :=
  bits w.toNat 31 4 ≠ 0 ∨ bits w.toNat 3 0 = 0 ∨ 7 ≤ bits w.toNat 3 0

theorem decode_encode (i : Instr) : decode (encode i) = .ok i := by cases i <;> rfl

theorem exists_opcode_eq (n : Nat) (h1 : 1 ≤ n) (h6 : n ≤ 6) : ∃ i, opcode i = n := by
  interval_cases n
  exacts [⟨.gcd, rfl⟩, ⟨.xgcd, rfl⟩, ⟨.modinv, rfl⟩, ⟨.modexp, rfl⟩, ⟨.encrypt, rfl⟩, ⟨.decrypt, rfl⟩]

/-- The fields `OP` and the rest determine the word, so a command has one word only (R90). -/
theorem eq_encode_of_bits (w : Word) (i : Instr) (hrest : bits w.toNat 31 4 = 0) (hop : bits w.toNat 3 0 = opcode i) :
    w = encode i := by
  have hw : w.toNat < 2 ^ 32 := w.isLt
  unfold bits at hrest hop
  rw [encode, show opcode i = w.toNat by omega, BitVec.ofNat_toNat, BitVec.setWidth_eq]

theorem decode_of_outsideOpcodeMap (w : Word) (h : outsideOpcodeMap w) : ∃ why, decode w = .error why := by
  unfold decode
  by_cases hrest : bits w.toNat 31 4 = 0
  · have hop : bits w.toNat 3 0 = 0 ∨ 7 ≤ bits w.toNat 3 0 := h.resolve_left (not_not_intro hrest)
    rw [if_neg (not_not_intro hrest)]
    refine ⟨.opcode, ?_⟩
    split
    case h_7 => rfl
    all_goals omega
  · exact ⟨_, if_pos hrest⟩

/-- The decoder's two outcomes: the word is a command's word, or it is outside the opcode map (R93, R94). -/
theorem decode_cases (w : Word) :
    (∃ i, w = encode i ∧ decode w = .ok i) ∨ (outsideOpcodeMap w ∧ ∃ why, decode w = .error why) := by
  by_cases h : outsideOpcodeMap w
  · exact .inr ⟨h, decode_of_outsideOpcodeMap w h⟩
  · unfold outsideOpcodeMap at h
    push Not at h
    obtain ⟨hrest, hop0, hop7⟩ := h
    obtain ⟨i, hi⟩ := exists_opcode_eq (bits w.toNat 3 0) (by omega) (by omega)
    obtain rfl : w = encode i := eq_encode_of_bits w i hrest hi.symm
    exact .inl ⟨i, rfl, decode_encode i⟩

theorem decode_eq_ok_iff (w : Word) (i : Instr) : decode w = .ok i ↔ w = encode i := by
  constructor
  · intro h
    rcases decode_cases w with ⟨j, hw, hj⟩ | ⟨-, why, hwhy⟩
    · rw [h] at hj
      cases hj
      exact hw
    · simp [h] at hwhy
  · rintro rfl
    exact decode_encode i

theorem exists_decode_eq_error_iff (w : Word) : (∃ why, decode w = .error why) ↔ outsideOpcodeMap w := by
  constructor
  · rintro ⟨why, hwhy⟩
    rcases decode_cases w with ⟨i, -, hi⟩ | ⟨h, -⟩
    · simp [hi] at hwhy
    · exact h
  · exact decode_of_outsideOpcodeMap w

/-- Settles O2: a word is some command's word or outside the opcode map, and the decoder accepts it exactly in the first
case, with that command. -/
theorem decodeAcceptsExactlyTheTable : Obligations.DecodeAcceptsExactlyTheTable :=
  ⟨decode_eq_ok_iff, exists_decode_eq_error_iff⟩

end Sys2Proof

namespace Sys2Proof.Machine

/-- CMD is the control register at offset `0x010` (R63). -/
theorem locate_cmd (a : BusAddr) (h : wordOffset a = 0x010) : locate a = .cmd :=
  locate_of_control a 4 (by decide) h

/-- Outside reset, a write made while busy at a location the engine withholds only sets WERR (R236). -/
theorem hostWrite_of_busy (s : State) (a : BusAddr) (v : Word) (hr : s.inReset = false) (hp : s.phase = .busy)
    (hd : droppedWhileBusy (locate a) = true) : s.hostWrite a v = s.dropWrite := by
  rcases hostWrite_cases s a v with ⟨hr', _⟩ | ⟨_, _, _, h⟩ | ⟨_, hp' | hd', _⟩
  · simp [hr] at hr'
  · exact h
  · simp [hp] at hp'
  · simp [hd] at hd'

/-- Outside reset, a step on an idle write to CMD accepts the word (R95). -/
theorem step_write_cmd_of_idle (s : State) (a : BusAddr) (w : Word) (rest : List Turn)
    (hs : s.schedule = .write a w :: rest) (ha : wordOffset a = 0x010) (hr : s.inReset = false) (hp : s.phase = .idle) :
    step s = .next (({ s with schedule := rest } : State).accept w) := by
  rw [step_write s a w rest hs, hostWrite_of_idle { s with schedule := rest } a w hr hp, locate_cmd a ha]
  rfl

/-- Outside reset, a step on a busy write to CMD drops the word (R95, R236). -/
theorem step_write_cmd_of_busy (s : State) (a : BusAddr) (w : Word) (rest : List Turn)
    (hs : s.schedule = .write a w :: rest) (ha : wordOffset a = 0x010) (hr : s.inReset = false) (hp : s.phase = .busy) :
    step s = .next ({ s with schedule := rest } : State).dropWrite := by
  rw [step_write s a w rest hs,
    hostWrite_of_busy { s with schedule := rest } a w hr hp (by rw [locate_cmd a ha]; rfl)]

/-- Settles O5: outside reset a write to CMD is the acceptance of its word while idle and is dropped while busy. -/
theorem cmdWriteIsAcceptedOnlyWhileIdle : Obligations.CmdWriteIsAcceptedOnlyWhileIdle := by
  intro s addr w rest hs ha hr
  exact ⟨step_write_cmd_of_idle s addr w rest hs ha hr, step_write_cmd_of_busy s addr w rest hs ha hr⟩

/-- A step on a turn of the engine. -/
theorem step_engine (s : State) (rest : List Turn) (h : s.schedule = .engine :: rest) :
    step s = engineTurn { s with schedule := rest } := by
  simp [step, nextTurn, h, takeTurn]

/-- A word outside the opcode map completes with `ILLEGAL_CMD` (R93, R97). -/
theorem completeCommand_of_outsideOpcodeMap (s : State) (h : outsideOpcodeMap s.cmd) :
    completeCommand s = .next (s.raiseError .illegalCmd) := by
  obtain ⟨why, hwhy⟩ := decode_of_outsideOpcodeMap s.cmd h
  unfold completeCommand
  rw [hwhy]

/-- The engine's turn while busy is Complete (R97). -/
theorem engineTurn_of_busy (s : State) (hp : s.phase = .busy) : engineTurn s = completeCommand s := by
  unfold engineTurn
  rw [hp]

/-- Settles O6: the first step accepts the word, the second completes it with the code, and completion puts `phase`
back where acceptance found it. -/
theorem illegalWordEndsWithIllegalCmd : Obligations.IllegalWordEndsWithIllegalCmd := by
  intro s addr w rest hs ha hr hp hw
  have haccept := step_write_cmd_of_idle s addr w (.engine :: rest) hs ha hr hp
  have hcomplete : step (({ s with schedule := .engine :: rest } : State).accept w) =
      .next ((({ s with schedule := rest } : State).accept w).raiseError .illegalCmd) := by
    rw [step_engine _ rest rfl, engineTurn_of_busy _ rfl, completeCommand_of_outsideOpcodeMap]
    · rfl
    · exact hw
  rw [core_run_succ 1 s _ haccept, core_run_succ 0 _ _ hcomplete]
  simp [Host.Core.run, State.raiseError, State.accept, hp]

end Sys2Proof.Machine
end

section
/-! SUPPORT. The proofs about the extended_gcd_unit: the equations of `ExtEuclid` (40_extended_gcd.md R121 to R125) and
the three commands that use it (R126 to R128). -/

namespace Sys2Proof.Machine

/-! ### `ExtEuclid` -/

/-- The base case of R121. -/
@[simp] theorem extEuclid_zero (a : Nat) : extEuclid a 0 = { x := 1, y := 0, g := a } := rfl

/-- The recurrence of R121: the levels left, `m - 1`, are enough for `a mod m`. -/
theorem extEuclid_of_pos (a m : Nat) (hm : 0 < m) :
    extEuclid a m = bezoutStep (a / m) (extEuclid m (a % m)) := by
  obtain ⟨n, rfl⟩ : ∃ n, m = n + 1 := ⟨m - 1, by omega⟩
  have hle : a % (n + 1) ≤ n := Nat.lt_succ_iff.mp (Nat.mod_lt a hm)
  rw [← extEuclidRec_enough n (n + 1) (a % (n + 1)) hle]
  rfl

/-- Settles O10: no count of levels is left in the two equations of `extEuclid`. -/
theorem extEuclidFollowsTheRecursion : Obligations.ExtEuclidFollowsTheRecursion :=
  ⟨extEuclid_zero, extEuclid_of_pos⟩

/-- The loop of R122 started from any accumulators: the triple of the two remainders, its coefficients applied to the
accumulators. -/
theorem extEuclidLoop_eq (n r0 r1 : Nat) (s0 s1 t0 t1 : Int) (h : r1 ≤ n) :
    extEuclidLoop n r0 r1 s0 s1 t0 t1 =
      { x := (extEuclid r0 r1).x * s0 + (extEuclid r0 r1).y * s1
        y := (extEuclid r0 r1).x * t0 + (extEuclid r0 r1).y * t1
        g := (extEuclid r0 r1).g } := by
  induction n generalizing r0 r1 s0 s1 t0 t1 with
  | zero =>
    obtain rfl : r1 = 0 := by omega
    simp [extEuclidLoop]
  | succ n ih =>
    unfold extEuclidLoop
    by_cases hr : r1 = 0
    · subst hr
      simp
    · have hlt : r0 % r1 < r1 := Nat.mod_lt r0 (by omega)
      have hmod : r0 - r0 / r1 * r1 = r0 % r1 := by rw [Nat.mod_def, Nat.mul_comm]
      rw [if_neg hr, hmod, ih r1 (r0 % r1) _ _ _ _ (by omega), extEuclid_of_pos r0 r1 (by omega)]
      simp only [bezoutStep, Bezout.mk.injEq, and_true]
      constructor <;> ring

/-- Settles O11: the loop starts from the accumulators `(1, 0)` and `(0, 1)`, which pick out the two coefficients. -/
theorem iterationEqualsRecursion : Obligations.IterationEqualsRecursion := by
  intro a m
  rw [extEuclidIter, extEuclidLoop_eq m a m 1 0 0 1 le_rfl]
  simp

@[simp] theorem extEuclid_g (a m : Nat) : (extEuclid a m).g = Nat.gcd a m := by
  induction m, a using Nat.gcd.induction with
  | H0 a => simp
  | H1 m a hm ih =>
    calc (extEuclid a m).g = (extEuclid m (a % m)).g := by rw [extEuclid_of_pos a m hm]; rfl
      _ = Nat.gcd m (a % m) := ih
      _ = Nat.gcd a m := by rw [Nat.gcd_comm, ← Nat.gcd_rec, Nat.gcd_comm]

/-- Bézout's identity (R123). -/
theorem extEuclid_bezout (a m : Nat) :
    (a : Int) * (extEuclid a m).x + (m : Int) * (extEuclid a m).y = (Nat.gcd a m : Int) := by
  rw [← extEuclid_g]
  induction m, a using Nat.gcd.induction with
  | H0 a => simp
  | H1 m a hm ih =>
    have hdiv : (a : Int) = m * (a / m : Nat) + (a % m : Nat) := by exact_mod_cast (Nat.div_add_mod a m).symm
    rw [extEuclid_of_pos a m hm]
    simp only [bezoutStep]
    linear_combination ih + (extEuclid m (a % m)).y * hdiv

/-- Settles O12. -/
theorem bezoutIdentity : Obligations.BezoutIdentity := by
  intro a m
  rw [gcd_eq, extEuclid_g]
  exact ⟨extEuclid_bezout a m, rfl⟩

/-- The bounds of R124. Where `m` divides `a` the triple is `(0, 1, m)`; elsewhere `|y|` is at most
`(a mod m) + (a div m) * m = a`. -/
theorem extEuclid_natAbs_le (a m : Nat) :
    (extEuclid a m).x.natAbs ≤ max m 1 ∧ (extEuclid a m).y.natAbs ≤ max a 1 := by
  induction m, a using Nat.gcd.induction with
  | H0 a => simp
  | H1 m a hm ih =>
    rw [extEuclid_of_pos a m hm]
    by_cases hr : a % m = 0
    · simp [bezoutStep, hr]
    · obtain ⟨hx, hy⟩ := ih
      simp only [bezoutStep]
      refine ⟨hy, ?_⟩
      calc ((extEuclid m (a % m)).x - ((a / m : Nat) : Int) * (extEuclid m (a % m)).y).natAbs
          ≤ (extEuclid m (a % m)).x.natAbs + (((a / m : Nat) : Int) * (extEuclid m (a % m)).y).natAbs :=
            Int.natAbs_sub_le _ _
        _ = (extEuclid m (a % m)).x.natAbs + a / m * (extEuclid m (a % m)).y.natAbs := by
            rw [Int.natAbs_mul, Int.natAbs_natCast]
        _ ≤ a % m + a / m * m := Nat.add_le_add (by omega) (Nat.mul_le_mul_left _ (by omega))
        _ = a := Nat.mod_add_div' a m
        _ ≤ max a 1 := le_max_left a 1

/-- Both magnitudes of operands below a bound above 1 are below it too: they fit a big register (R124). -/
theorem extEuclid_natAbs_lt (a m bound : Nat) (h1 : 1 < bound) (ha : a < bound) (hm : m < bound) :
    (extEuclid a m).x.natAbs < bound ∧ (extEuclid a m).y.natAbs < bound := by
  have h := extEuclid_natAbs_le a m
  omega

/-- Settles O13. -/
theorem bezoutMagnitudesFit : Obligations.BezoutMagnitudesFit := by
  intro a m
  obtain ⟨hx, hy⟩ := extEuclid_natAbs_le a m
  refine ⟨hx, hy, fun w hw ha hm => ?_⟩
  exact extEuclid_natAbs_lt a m (2 ^ w) (Nat.one_lt_two_pow (by omega)) ha hm

/-- For coprime operands and a modulus that is not 0, `x mod m` is the inverse in `[0, m)` (R125): Bézout's identity
taken modulo `m`. -/
theorem extEuclid_x_emod_is_inverse (a m : Nat) (hg : Nat.gcd a m = 1) (hm : m ≠ 0) :
    ((extEuclid a m).x % (m : Int)).toNat < m ∧
    a * ((extEuclid a m).x % (m : Int)).toNat % m = 1 % m ∧
    (((extEuclid a m).x % (m : Int)).toNat : Int) = (extEuclid a m).x % (m : Int) := by
  have hm' : (0 : Int) < m := by omega
  have hcast : (((extEuclid a m).x % (m : Int)).toNat : Int) = (extEuclid a m).x % (m : Int) :=
    Int.toNat_of_nonneg (Int.emod_nonneg _ hm'.ne')
  have hlt : (extEuclid a m).x % (m : Int) < m := Int.emod_lt_of_pos _ hm'
  have hbez : (a : Int) * (extEuclid a m).x + m * (extEuclid a m).y = 1 := by rw [extEuclid_bezout, hg]; rfl
  refine ⟨by omega, ?_, hcast⟩
  have key : (a : Int) * ((extEuclid a m).x % m) % m = 1 % m :=
    calc (a : Int) * ((extEuclid a m).x % m) % m = a * (extEuclid a m).x % m := by simp [Int.mul_emod]
      _ = (a * (extEuclid a m).x + m * (extEuclid a m).y) % m := (Int.add_mul_emod_self_left _ _ _).symm
      _ = 1 % m := by rw [hbez]
  rw [← hcast] at key
  exact_mod_cast key

/-! ### The commands -/

/-- Settles O9: the run writes `Gcd` of the operands, which is their greatest common divisor. -/
theorem gcdCompletes : Obligations.GcdCompletes := by
  refine ⟨rfl, fun s => ?_⟩
  rw [exec_eq, ← gcd_eq]
  rfl

/-- Sign and magnitude give the coefficient back (R127). -/
theorem signBit_natAbs (v : Int) : (if signBit v then -(v.natAbs : Int) else v.natAbs) = v := by
  simp only [signBit, decide_eq_true_eq]
  split <;> omega

/-- There is no negative zero (R127). -/
theorem signBit_of_natAbs_eq_zero (v : Int) (h : v.natAbs = 0) : signBit v = false := by
  simp only [signBit, decide_eq_false_iff_not]
  omega

/-- Bits 31:2 of XSIGN read 0 (R31). -/
theorem bits_xsignWord (s : State) : bits s.xsignWord.toNat 31 2 = 0 := by
  unfold State.xsignWord
  cases s.xneg <;> cases s.yneg <;> rfl

/-- Settles O14: the run writes the triple of `ExtEuclid`, and sign and magnitude lose nothing of it. -/
theorem xgcdCompletes : Obligations.XgcdCompletes := by
  refine ⟨rfl, fun s => ⟨(s.putBezout (extEuclid s.regA s.regM)).finish, exec_eq .xgcd s, ?_, ?_⟩⟩
  · rw [← extEuclid_g]
    rfl
  · have hx := signBit_natAbs (extEuclid s.regA s.regM).x
    have hy := signBit_natAbs (extEuclid s.regA s.regM).y
    refine ⟨hx, hy, ?_, signBit_of_natAbs_eq_zero _, signBit_of_natAbs_eq_zero _, bits_xsignWord _⟩
    simp only [State.finish, State.putBezout, hx, hy, extEuclid_g]
    exact extEuclid_bezout s.regA s.regM

/-- Settles O15: the three outcomes of the run, completed; in the first the value written is the inverse. -/
theorem modinvCompletes : Obligations.ModinvCompletes := by
  refine ⟨rfl, fun s => ?_⟩
  obtain ⟨hNoInverse, hModZero, hOk⟩ := runModinv_cases s
  simp only [extEuclid_g] at hNoInverse hModZero hOk
  have hexec : exec .modinv s = .next (s.complete (runModinv s)) := exec_eq .modinv s
  refine ⟨fun hg hm => ⟨_, ?_, extEuclid_x_emod_is_inverse s.regA s.regM hg hm⟩, fun hg => ?_, fun hg hm => ?_⟩
  · rw [hexec, hOk hg hm]
    rfl
  · rw [hexec, hNoInverse hg]
    rfl
  · rw [hexec, hModZero hg hm]
    rfl

end Sys2Proof.Machine
end

section
/-! SUPPORT. The proofs about the modular_exponentiation_engine unit: the value of `ModExp` (41_modexp.md R141, R142) and
its command (R145). -/

namespace Sys2Proof.Machine

/-- R141, the 1 unreduced. -/
theorem modExp_zero_exp (base mod : Nat) : modExp base 0 mod = 1 := rfl

/-- R142. The loop's result is below the modulus, so it equals its residue, and the residue is the loop invariant's
`1 * (base mod mod)^exp`. -/
theorem modExp_eq_pow_mod (base exp mod : Nat) (hexp : exp ≠ 0) (hmod : mod ≠ 0) :
    modExp base exp mod = base ^ exp % mod := by
  have hbits : exp < 2 ^ bitLength exp := lt_two_pow_bitLength exp
  have hlt : modExp base exp mod < mod :=
    modExpLoop_lt mod _ _ _ _ (Nat.pos_of_ne_zero hmod) hbits (.inr (Nat.pos_of_ne_zero hexp))
  calc modExp base exp mod = modExp base exp mod % mod := (Nat.mod_eq_of_lt hlt).symm
    _ = 1 * (base % mod) ^ exp % mod := modExpLoop_mod mod _ _ _ _ hbits
    _ = base ^ exp % mod := by rw [one_mul, ← Nat.pow_mod]

/-- `ModExp` for every exponent: the 1 of a zero exponent is not reduced (R141, R142). -/
theorem modExp_eq_ite (base exp mod : Nat) (hmod : mod ≠ 0) :
    modExp base exp mod = if exp = 0 then 1 else base ^ exp % mod := by
  by_cases hexp : exp = 0
  · rw [if_pos hexp, hexp, modExp_zero_exp]
  · rw [if_neg hexp, modExp_eq_pow_mod base exp mod hexp hmod]

/-- MODEXP's two outcomes, by its only test (R145). -/
theorem runModexp_cases (s : State) :
    (s.regM = 0 → runModexp s = .error .modZero) ∧
    (s.regM ≠ 0 → runModexp s = .ok { s with regR := modExp s.regA s.regE s.regM }) :=
  ⟨fun h => if_pos h, fun h => if_neg h⟩

/-- Settles O16: the two outcomes of the run, completed; in the first the value written is the plain power's residue. -/
theorem modexpCompletes : Obligations.ModexpCompletes := by
  refine ⟨rfl, fun s => ?_⟩
  obtain ⟨hModZero, hOk⟩ := runModexp_cases s
  have hexec : exec .modexp s = .next (s.complete (runModexp s)) := exec_eq .modexp s
  refine ⟨fun hm => ?_, fun hm => ?_⟩
  · rw [hexec, hOk hm, modExp_eq_ite s.regA s.regE s.regM hm]
    rfl
  · rw [hexec, hModZero hm]
    rfl

end Sys2Proof.Machine
end

section
/-! SUPPORT. The proofs about the BlockCodec functions: what each gives back of a message (42_block_cipher.md R160 to
R163). -/

namespace Sys2Proof.Machine

/-! ### Big-endian byte strings (R160, R161) -/

/-- `w` bytes hold the numbers below `256^w`. -/
theorem two_pow_eight_mul (w : Nat) : 2 ^ (8 * w) = 256 ^ w := pow_mul 2 8 w

/-- One byte of width more puts one digit more in front. -/
theorem beBytes_succ (v w : Nat) : beBytes v (w + 1) = BitVec.ofNat 8 (v / 256 ^ w % 256) :: beBytes v w := by
  simp [beBytes, List.range_succ_eq_map, Nat.sub_sub, Nat.add_comm]

/-- The bytes are the base-256 digits, so what they read back as is the value cut off at their width. -/
theorem beToInt_beBytes (v w : Nat) : beToInt (beBytes v w) = v % 256 ^ w := by
  induction w with
  | zero => simp [beBytes, beToInt, Nat.mod_one]
  | succ w ih =>
    have hdigit : (BitVec.ofNat 8 (v / 256 ^ w % 256)).toNat = v / 256 ^ w % 256 := by simp
    rw [beBytes_succ, beToInt, hdigit, length_beBytes, ih, Nat.mod_pow_succ]
    ring

theorem getElem?_beBytes (v w i : Nat) (hi : i < w) :
    (beBytes v w)[i]? = some (BitVec.ofNat 8 (v / 256 ^ (w - 1 - i) % 256)) := by
  simp [beBytes, hi]

theorem intToBe_overflow (v w : Nat) (h : 2 ^ (8 * w) ≤ v) : intToBe v w = .error .encOverflow := if_pos h

/-- What a successful `IntToBe` gave reads back as the value. -/
theorem beToInt_of_intToBe (v w : Nat) (bs : List Byte) (h : intToBe v w = .ok bs) : beToInt bs = v := by
  by_cases hv : v < 2 ^ (8 * w)
  · rw [intToBe_ok v w hv] at h
    cases h
    rw [beToInt_beBytes, ← two_pow_eight_mul, Nat.mod_eq_of_lt hv]
  · rw [intToBe_overflow v w (by omega)] at h
    cases h

/-- Settles O18: the value fits or it does not, and the digits of one that fits read back as it. -/
theorem bigEndianRoundTrip : Obligations.BigEndianRoundTrip := by
  intro v w
  refine ⟨intToBe_overflow v w, fun hv => ?_⟩
  have hok := intToBe_ok v w hv
  exact ⟨beBytes v w, hok, length_beBytes v w, beToInt_of_intToBe v w _ hok, getElem?_beBytes v w⟩

/-- Byte strings of one length and one value are equal: the first byte is the quotient by the weight of the rest, and
the rest is the remainder. -/
theorem beToInt_injective (bs cs : List Byte) (hlen : bs.length = cs.length) (h : beToInt bs = beToInt cs) :
    bs = cs := by
  induction bs generalizing cs with
  | nil => exact (List.length_eq_zero_iff.mp hlen.symm).symm
  | cons b bs ih =>
    cases cs with
    | nil => simp at hlen
    | cons c cs =>
      have hlen' : bs.length = cs.length := by simpa using hlen
      have hb := beToInt_lt bs
      have hc := beToInt_lt cs
      simp only [beToInt] at h
      rw [hlen'] at h hb
      have hhead : b.toNat = c.toNat := by
        have hdiv := congrArg (· / 256 ^ cs.length) h
        have hpos : 0 < 256 ^ cs.length := by positivity
        simpa only [Nat.mul_comm _ (256 ^ cs.length), Nat.mul_add_div hpos, Nat.div_eq_of_lt hb, Nat.div_eq_of_lt hc,
          Nat.add_zero] using hdiv
      rw [hhead] at h
      rw [BitVec.eq_of_toNat_eq hhead, ih cs hlen' (by omega)]

/-- The digits of a byte string's value are the byte string. -/
theorem beBytes_beToInt (bs : List Byte) : beBytes (beToInt bs) bs.length = bs := by
  apply beToInt_injective _ _ (length_beBytes _ _)
  rw [beToInt_beBytes, Nat.mod_eq_of_lt (beToInt_lt bs)]

/-! ### Stripping (R163) -/

@[simp] theorem stripLeadingZeros_zero_cons (bs : List Byte) : stripLeadingZeros (0#8 :: bs) = stripLeadingZeros bs :=
  if_pos rfl

theorem stripLeadingZeros_cons_of_ne (b : Byte) (bs : List Byte) (hb : b ≠ 0#8) :
    stripLeadingZeros (b :: bs) = b :: bs := if_neg hb

/-- Settles O20, by induction on the bytes: a leading zero byte is one more to remove, any other stops the removal. -/
theorem stripRemovesLeadingZeros : Obligations.StripRemovesLeadingZeros := by
  intro bs
  induction bs with
  | nil => exact ⟨0, rfl, le_rfl, by simp, by simp⟩
  | cons b bs ih =>
    by_cases hb : b = 0#8
    · subst hb
      obtain ⟨j, hdrop, hle, hzero, hstop⟩ := ih
      refine ⟨j + 1, by simpa using hdrop, by simpa using hle, fun i hi => ?_, by simpa using hstop⟩
      cases i with
      | zero => rfl
      | succ i => simpa using hzero i (by omega)
    · exact ⟨0, stripLeadingZeros_cons_of_ne b bs hb, by simp, by simp, by simpa using hb⟩

/-- Stripping keeps a byte string exactly when it does not begin with a zero byte. -/
theorem stripLeadingZeros_eq_self_iff (bs : List Byte) : stripLeadingZeros bs = bs ↔ bs[0]? ≠ some 0 := by
  cases bs with
  | nil => simp [stripLeadingZeros]
  | cons b bs =>
    by_cases hb : b = 0#8
    · subst hb
      have hlen := length_stripLeadingZeros_le bs
      have hne : stripLeadingZeros bs ≠ 0#8 :: bs := fun h => by simp [h] at hlen
      simpa using hne
    · simpa [stripLeadingZeros_cons_of_ne b bs hb] using hb

theorem stripLeadingZeros_of_all_zero (bs : List Byte) (h : ∀ b ∈ bs, b = 0) : stripLeadingZeros bs = [] := by
  induction bs with
  | nil => rfl
  | cons b bs ih =>
    rw [stripLeadingZeros, if_pos (h b List.mem_cons_self), ih fun c hc => h c (List.mem_cons_of_mem b hc)]

/-- Width beyond what the value needs is leading zero bytes, which stripping removes. -/
theorem stripLeadingZeros_beBytes_of_le (v w k : Nat) (hv : v < 256 ^ w) (hk : w ≤ k) :
    stripLeadingZeros (beBytes v k) = stripLeadingZeros (beBytes v w) := by
  induction k, hk using Nat.le_induction with
  | base => rfl
  | succ k hk ih =>
    have hlt : v < 256 ^ k := hv.trans_le (Nat.pow_le_pow_right (by omega) hk)
    rw [beBytes_succ, Nat.div_eq_of_lt hlt, stripLeadingZeros, if_pos (by rfl), ih]

/-- Decoded and encoded again in a width that holds it, a byte string loses its leading zero bytes and nothing else
when stripped. -/
theorem stripLeadingZeros_beBytes_beToInt (bs : List Byte) (k : Nat) (hk : bs.length ≤ k) :
    stripLeadingZeros (beBytes (beToInt bs) k) = stripLeadingZeros bs := by
  rw [stripLeadingZeros_beBytes_of_le _ bs.length k (beToInt_lt bs) hk, beBytes_beToInt]

/-! ### Blocks (R162) -/

/-- A block's index is one whose offset lies in the message. -/
theorem lt_ceilDiv_iff (L s i : Nat) (hs : 1 ≤ s) : i < ceilDiv L s ↔ i * s < L := by
  rw [ceilDiv, Nat.lt_iff_add_one_le, Nat.le_div_iff_mul_le hs, Nat.add_mul]
  omega

theorem ceilDiv_zero (s : Nat) : ceilDiv 0 s = 0 := by
  simp only [ceilDiv, Nat.div_eq_zero_iff]
  omega

theorem blocks_zero (s : Nat) : blocks 0 s = [] := by simp [blocks, ceilDiv_zero]

theorem getElem?_blocks_eq_some_iff (L s i off n : Nat) :
    (blocks L s)[i]? = some (off, n) ↔ i < ceilDiv L s ∧ off = i * s ∧ n = min s (L - i * s) := by
  by_cases hi : i < ceilDiv L s <;> simp [blocks, hi, eq_comm]

/-- The blocks counted by `ceil(L / s)` reach the end of the message. -/
theorem le_ceilDiv_mul (L s : Nat) (hs : 1 ≤ s) : L ≤ ceilDiv L s * s := by
  have h := lt_ceilDiv_iff L s (ceilDiv L s) hs
  omega

/-- The first `c` blocks together are the first `c * s` bytes, or the whole message where it is shorter. -/
theorem sum_block_lengths (L s c : Nat) :
    ((List.range c).map fun i => min s (L - i * s)).sum = min (c * s) L := by
  induction c with
  | zero => simp
  | succ c ih =>
    rw [List.range_succ, List.map_append, List.sum_append, ih, Nat.add_mul]
    simp only [List.map_cons, List.map_nil, List.sum_cons, List.sum_nil]
    omega

/-- Block `i` is the `i`-th stretch of `s` bytes cut off at `L`, and there is a further block exactly while bytes are
left. -/
theorem getElem?_blocks_bounds (L s i off n : Nat) (hs : 1 ≤ s) (hi : (blocks L s)[i]? = some (off, n)) :
    off = i * s ∧ 1 ≤ n ∧ n ≤ s ∧ off + n ≤ L ∧ (i + 1 < (blocks L s).length → n = s) ∧
      (i + 1 = (blocks L s).length → off + n = L) := by
  obtain ⟨hlt, rfl, rfl⟩ := (getElem?_blocks_eq_some_iff L s i off n).mp hi
  have hnext := lt_ceilDiv_iff L s (i + 1) hs
  rw [lt_ceilDiv_iff L s i hs] at hlt
  rw [Nat.add_mul] at hnext
  rw [length_blocks]
  omega

/-- Settles O19. -/
theorem blocksCoverTheMessage : Obligations.BlocksCoverTheMessage := by
  intro L s hs
  refine ⟨fun i off n hi => getElem?_blocks_bounds L s i off n hs hi, ?_, blocks_zero s⟩
  have hend := le_ceilDiv_mul L s hs
  calc ((blocks L s).map Prod.snd).sum
      = ((List.range (ceilDiv L s)).map fun i => min s (L - i * s)).sum := by rw [blocks, List.map_map]; rfl
    _ = min (ceilDiv L s * s) L := sum_block_lengths L s _
    _ = L := by omega

/-- The first `c` blocks of a message in the buffer, joined, are its bytes up to their end. -/
theorem flatten_block_reads (m : Memory) (src L s c : Nat) :
    ((List.range c).map fun i => m.readBytes (src + i * s) (min s (L - i * s))).flatten =
      m.readBytes src (min (c * s) L) := by
  induction c with
  | zero => simp [Memory.readBytes]
  | succ c ih =>
    rw [List.range_succ, List.map_append, List.flatten_append, ih]
    simp only [List.map_cons, List.map_nil, List.flatten_cons, List.flatten_nil, List.append_nil]
    by_cases hc : c * s ≤ L
    · rw [Nat.min_eq_left hc, ← Memory.readBytes_add]
      congr 1
      rw [Nat.add_mul]
      omega
    · have hend : min (c * s) L = L ∧ min s (L - c * s) = 0 ∧ min ((c + 1) * s) L = L := by
        rw [Nat.add_mul]
        omega
      obtain ⟨hread, hblock, hnext⟩ := hend
      rw [hread, hblock, hnext, Memory.readBytes, List.append_nil]

/-- The blocks of a message in the buffer, joined, are the message. -/
theorem flatten_blocks_reads (m : Memory) (src L s : Nat) (hs : 1 ≤ s) :
    ((List.range (ceilDiv L s)).map fun i => m.readBytes (src + i * s) (min s (L - i * s))).flatten =
      m.readBytes src L := by
  rw [flatten_block_reads, Nat.min_eq_right (le_ceilDiv_mul L s hs)]

end Sys2Proof.Machine
end

section
/-! SUPPORT. The arithmetic of a valid key: exponentiation by `e` and then by `d` gives a number below the modulus back
(41_modexp.md R147). -/

namespace Sys2Proof.Machine

/-- Fermat's little theorem for exponents that are 1 modulo `p - 1`, multiples of `p` included. -/
theorem pow_modEq_self_of_prime (p k x : Nat) (hp : p.Prime) (hk0 : k ≠ 0) (hk : k ≡ 1 [MOD p - 1]) :
    x ^ k ≡ x [MOD p] := by
  have : Fact p.Prime := ⟨hp⟩
  obtain ⟨t, ht⟩ : p - 1 ∣ k - 1 := (Nat.modEq_iff_dvd' (by omega)).mp hk.symm
  obtain rfl : k = (p - 1) * t + 1 := by omega
  rw [← ZMod.natCast_eq_natCast_iff]
  push_cast
  by_cases hx : (x : ZMod p) = 0
  · simp [hx]
  · rw [pow_succ, pow_mul, ZMod.pow_card_sub_one_eq_one hx, one_pow, one_mul]

/-- Distinct primes leave `(p-1)(q-1)` above 1. -/
theorem one_lt_pred_mul_pred (p q : Nat) (hp : p.Prime) (hq : q.Prime) (hpq : p ≠ q) : 1 < (p - 1) * (q - 1) := by
  have hp2 := hp.two_le
  have hq2 := hq.two_le
  rcases lt_or_gt_of_ne hpq with h | h
  · calc 1 < 1 * 2 := by omega
      _ ≤ (p - 1) * (q - 1) := Nat.mul_le_mul (by omega) (by omega)
  · calc 1 < 2 * 1 := by omega
      _ ≤ (p - 1) * (q - 1) := Nat.mul_le_mul (by omega) (by omega)

/-- Neither exponent of a valid key is 0: 0 is not 1 modulo `(p-1)(q-1)`. -/
theorem validKey_exponents_ne_zero (n e d : Nat) (h : validKey n e d) : e * d ≠ 0 := by
  obtain ⟨p, q, hp, hq, hpq, -, hed⟩ := h
  intro h0
  have h1 := one_lt_pred_mul_pred p q hp hq hpq
  rw [h0, Nat.ModEq, Nat.zero_mod, Nat.mod_eq_of_lt h1] at hed
  omega

/-- The powers of a valid key cancel modulo `n`, because they cancel modulo each prime. -/
theorem pow_modEq_self_of_validKey (n e d x : Nat) (h : validKey n e d) : x ^ (e * d) ≡ x [MOD n] := by
  have h0 := validKey_exponents_ne_zero n e d h
  obtain ⟨p, q, hp, hq, hpq, rfl, hed⟩ := h
  exact (Nat.modEq_and_modEq_iff_modEq_mul ((Nat.coprime_primes hp hq).mpr hpq)).mp
    ⟨pow_modEq_self_of_prime p _ x hp h0 (hed.of_mul_right _),
      pow_modEq_self_of_prime q _ x hq h0 (hed.of_mul_left _)⟩

/-- Encryption, then decryption, of a number below the modulus. -/
theorem modExp_modExp_of_validKey (n e d x : Nat) (h : validKey n e d) (hx : x < n) :
    modExp (modExp x e n) d n = x := by
  obtain ⟨he, hd⟩ := Nat.mul_ne_zero_iff.mp (validKey_exponents_ne_zero n e d h)
  calc modExp (modExp x e n) d n = (x ^ e % n) ^ d % n := by
        rw [modExp_eq_pow_mod x e n he (by omega), modExp_eq_pow_mod _ d n hd (by omega)]
    _ = x ^ (e * d) % n := by rw [← Nat.pow_mod, pow_mul]
    _ = x % n := pow_modEq_self_of_validKey n e d x h
    _ = x := Nat.mod_eq_of_lt hx

/-- A block whose value is below the modulus, encrypted, decrypted and stripped (R174). -/
theorem stripLeadingZeros_decrypted_block (k n e d : Nat) (bs : List Byte) (hkey : validKey n e d)
    (hlen : bs.length ≤ k) (hlt : beToInt bs < n) :
    stripLeadingZeros (beBytes (modExp (modExp (beToInt bs) e n) d n) k) = stripLeadingZeros bs := by
  rw [modExp_modExp_of_validKey n e d _ hkey hlt, stripLeadingZeros_beBytes_beToInt bs k hlen]

/-- Settles O25: the key gives the block's value back, and encoding and stripping lose the leading zero bytes only. -/
theorem zeroStrippingLoss : Obligations.ZeroStrippingLoss := by
  intro k n e d bs hkey _ _ hlen hlt
  exact ⟨stripLeadingZeros_decrypted_block k n e d bs hkey (by omega) hlt, stripLeadingZeros_eq_self_iff bs,
    stripLeadingZeros_of_all_zero bs⟩

end Sys2Proof.Machine
end

section
/-! SUPPORT. The proofs about ENCRYPT and DECRYPT as commands: empty messages and the round trip (42_block_cipher.md
R167, R170, R171, R176). -/

namespace Sys2Proof.Machine

/-! ### The runs with their checks passed -/

/-- ENCRYPT with its checks passed is its loop (R167). -/
theorem runEncrypt_of_checks (s : State) (hm : s.regM ≠ 0) (hsrc : s.src.toNat + s.len.toNat ≤ s.cfg.bufBytes)
    (hdst : s.dst.toNat + s.encLen ≤ s.cfg.bufBytes)
    (hov : overlaps s.src.toNat s.len.toNat s.dst.toNat s.encLen = false) :
    runEncrypt s = (encryptBlocks (keyBytes s.cfg) s.regE s.regM s.src.toNat s.dst.toNat 0
      (blocks s.len.toNat (keyBytes s.cfg - 1)) s.mem).map
        fun m => { s with mem := m, outlen := BitVec.ofNat 32 s.encLen, failcnt := 0 } := by
  simp [runEncrypt, hm, rangeOk, hsrc, hdst, hov]

/-- What DECRYPT's loop answers on the buffer as it stands (R171). -/
def State.decrypted (s : State) : DecryptAcc :=
  decryptBlocks (keyBytes s.cfg) s.regE s.regM s.src.toNat s.dst.toNat 0
    (s.len.toNat / keyBytes s.cfg) { mem := s.mem, pos := 0, fails := 0 }

/-- DECRYPT with its checks passed is its loop (R171). -/
theorem runDecrypt_of_checks (s : State) (hlen : s.len.toNat % keyBytes s.cfg = 0) (hm : s.regM ≠ 0)
    (hsrc : s.src.toNat + s.len.toNat ≤ s.cfg.bufBytes) (hdst : s.dst.toNat + s.len.toNat ≤ s.cfg.bufBytes)
    (hov : overlaps s.src.toNat s.len.toNat s.dst.toNat s.len.toNat = false) :
    runDecrypt s = .ok { s with
      mem := s.decrypted.mem
      outlen := BitVec.ofNat 32 s.decrypted.pos
      failcnt := BitVec.ofNat 32 s.decrypted.fails } := by
  simp [runDecrypt, State.decrypted, hlen, hm, rangeOk, hsrc, hdst, hov]

/-- The output is as many blocks of `K` bytes as the message has blocks (R164). -/
theorem State.encLen_eq (s : State) :
    s.encLen = ceilDiv s.len.toNat (keyBytes s.cfg - 1) * keyBytes s.cfg := rfl

/-! ### Empty messages (R170) -/

/-- An empty range shares no byte. -/
theorem overlaps_zero (a b lb : Nat) : overlaps a 0 b lb = false := by simp [overlaps]

theorem encLen_of_len_zero (s : State) (h : s.len = 0) : s.encLen = 0 := by
  simp [State.encLen_eq, h, ceilDiv_zero]

theorem runEncrypt_of_len_zero (s : State) (hlen : s.len = 0) (hm : s.regM ≠ 0)
    (hsrc : s.src.toNat ≤ s.cfg.bufBytes) (hdst : s.dst.toNat ≤ s.cfg.bufBytes) :
    runEncrypt s = .ok { s with outlen := 0, failcnt := 0 } := by
  have h0 : s.len.toNat = 0 := by rw [hlen]; rfl
  have henc := encLen_of_len_zero s hlen
  rw [runEncrypt_of_checks s hm (by omega) (by omega) (by rw [h0, overlaps_zero]), h0, blocks_zero, henc]
  rfl

theorem runDecrypt_of_len_zero (s : State) (hlen : s.len = 0) (hm : s.regM ≠ 0)
    (hsrc : s.src.toNat ≤ s.cfg.bufBytes) (hdst : s.dst.toNat ≤ s.cfg.bufBytes) :
    runDecrypt s = .ok { s with outlen := 0, failcnt := 0 } := by
  have h0 : s.len.toNat = 0 := by rw [hlen]; rfl
  have hdec : s.decrypted = { mem := s.mem, pos := 0, fails := 0 } := by
    rw [State.decrypted, h0, Nat.zero_div, decryptBlocks]
  rw [runDecrypt_of_checks s (by rw [h0, Nat.zero_mod]) hm (by omega) (by omega) (by rw [h0, overlaps_zero]), hdec]
  rfl

/-- Settles O23: with no block both loops answer the buffer as it stands. -/
theorem emptyMessages : Obligations.EmptyMessages := by
  rintro i s (rfl | rfl) hlen hm hsrc hdst <;> rw [exec_eq, runCommand]
  · rw [runEncrypt_of_len_zero s hlen hm hsrc hdst]
    rfl
  · rw [runDecrypt_of_len_zero s hlen hm hsrc hdst]
    rfl

/-! ### What the loops leave of a message -/

/-- `K` bytes hold `W` bits, a block of `K - 1` bytes is not empty, and the buffer's size fits a register (R7, R8,
R10). -/
theorem keyBytes_bounds (p : Params) (h : p.wf = true) :
    2 ≤ keyBytes p ∧ 8 * keyBytes p = p.keyBits ∧ p.bufBytes < 2 ^ 32 := by
  simp only [Params.wf, Params.keyBitsLegal, Params.bufBytesLegal, Bool.and_eq_true, beq_iff_eq,
    decide_eq_true_eq] at h
  unfold keyBytes
  omega

/-- Ranges that share no byte lie one before the other, or one is empty (R166). -/
theorem overlaps_eq_false_iff (a la b lb : Nat) :
    overlaps a la b lb = false ↔ la = 0 ∨ lb = 0 ∨ a + la ≤ b ∨ b + lb ≤ a := by
  simp only [overlaps, Bool.and_eq_false_iff, decide_eq_false_iff_not]
  omega

/-- Equal ranges are equal in each part. -/
theorem Memory.readBytes_part (m m' : Memory) (a a' n j k : Nat) (h : m.readBytes a n = m'.readBytes a' n)
    (hjk : j + k ≤ n) : m.readBytes (a + j) k = m'.readBytes (a' + j) k := by
  apply Memory.readBytes_congr
  intro i hi
  have hbyte := congrArg (·[j + i]?) h
  have hji : j + i < n := by omega
  simpa only [Memory.getElem?_readBytes, if_pos hji, Option.some.injEq, Nat.add_assoc] using hbyte

/-- Plaintext block `i` of ENCRYPT's source (R162, R167). -/
def State.sourceBlock (s : State) (i : Nat) : List Byte :=
  s.mem.readBytes (s.src.toNat + i * (keyBytes s.cfg - 1))
    (min (keyBytes s.cfg - 1) (s.len.toNat - i * (keyBytes s.cfg - 1)))

theorem length_sourceBlock_le (s : State) (i : Nat) : (s.sourceBlock i).length ≤ keyBytes s.cfg - 1 := by
  simp [State.sourceBlock]

/-- The source blocks joined are the message. -/
theorem flatten_sourceBlocks (s : State) (hwf : s.cfg.wf = true) :
    ((List.range (ceilDiv s.len.toNat (keyBytes s.cfg - 1))).map s.sourceBlock).flatten =
      s.mem.readBytes s.src.toNat s.len.toNat := by
  obtain ⟨hK, -, -⟩ := keyBytes_bounds s.cfg hwf
  exact flatten_blocks_reads s.mem _ _ _ (by omega)

/-- A source block is one of the blocks that the message is cut into. -/
theorem getElem?_blocks_sourceBlock (s : State) (i : Nat) (hi : i < ceilDiv s.len.toNat (keyBytes s.cfg - 1)) :
    (blocks s.len.toNat (keyBytes s.cfg - 1))[i]? = some (i * (keyBytes s.cfg - 1),
      min (keyBytes s.cfg - 1) (s.len.toNat - i * (keyBytes s.cfg - 1))) :=
  (getElem?_blocks_eq_some_iff _ _ _ _ _).mpr ⟨hi, rfl, rfl⟩

/-- A source block that does not begin with a zero byte is kept by stripping. -/
theorem stripLeadingZeros_sourceBlock (s : State) (i : Nat)
    (h : s.mem.readByte (s.src.toNat + i * (keyBytes s.cfg - 1)) ≠ 0) :
    stripLeadingZeros (s.sourceBlock i) = s.sourceBlock i := by
  rw [stripLeadingZeros_eq_self_iff, State.sourceBlock, Memory.getElem?_readBytes]
  split
  · simpa using h
  · simp

/-- Where source and destination share no byte, each block of the source lies before or after the whole destination. -/
theorem blocks_apart (s : State) (hwf : s.cfg.wf = true)
    (hov : overlaps s.src.toNat s.len.toNat s.dst.toNat s.encLen = false) :
    ∀ b ∈ blocks s.len.toNat (keyBytes s.cfg - 1),
      s.src.toNat + b.1 + b.2 ≤ s.dst.toNat ∨ s.dst.toNat + s.encLen ≤ s.src.toNat + b.1 := by
  rintro ⟨off, n⟩ hb
  obtain ⟨hK, -, -⟩ := keyBytes_bounds s.cfg hwf
  obtain ⟨j, hj⟩ := List.mem_iff_getElem?.mp hb
  obtain ⟨-, hn, -, hend, -⟩ := getElem?_blocks_bounds _ _ j off n (by omega) hj
  have hlt := ((getElem?_blocks_eq_some_iff _ _ _ _ _).mp hj).1
  have hpos : 0 < s.encLen := Nat.mul_pos (Nat.zero_lt_of_lt hlt) (by omega)
  rw [overlaps_eq_false_iff] at hov
  omega

/-- After ENCRYPT's loop ciphertext block `i` is the exponentiated integer of source block `i`. -/
theorem beToInt_encrypted_block (s : State) (m : Memory) (hwf : s.cfg.wf = true)
    (hov : overlaps s.src.toNat s.len.toNat s.dst.toNat s.encLen = false)
    (hm : encryptBlocks (keyBytes s.cfg) s.regE s.regM s.src.toNat s.dst.toNat 0
      (blocks s.len.toNat (keyBytes s.cfg - 1)) s.mem = .ok m)
    (i : Nat) (hi : i < ceilDiv s.len.toNat (keyBytes s.cfg - 1)) :
    beToInt (m.readBytes (s.dst.toNat + i * keyBytes s.cfg) (keyBytes s.cfg)) =
      modExp (beToInt (s.sourceBlock i)) s.regE s.regM := by
  have hapart : ∀ b ∈ blocks s.len.toNat (keyBytes s.cfg - 1),
      s.src.toNat + b.1 + b.2 ≤ s.dst.toNat + 0 * keyBytes s.cfg ∨
      s.dst.toNat + (0 + (blocks s.len.toNat (keyBytes s.cfg - 1)).length) * keyBytes s.cfg ≤ s.src.toNat + b.1 := by
    simpa only [length_blocks, Nat.zero_add, Nat.zero_mul, Nat.add_zero, ← State.encLen_eq]
      using blocks_apart s hwf hov
  have hblock := encryptBlocks_block _ _ _ _ _ _ _ _ _ hm hapart i _ _ (getElem?_blocks_sourceBlock s i hi)
  rw [Nat.zero_add] at hblock
  exact beToInt_of_intToBe _ _ _ hblock

/-- What DECRYPT writes: the stripped decrypted blocks, joined (R171). -/
def State.plaintext (s : State) : List Byte :=
  ((List.range (s.len.toNat / keyBytes s.cfg)).map
    (plainBlock (keyBytes s.cfg) s.regE s.regM s.src.toNat s.mem)).flatten

/-- DECRYPT's loop leaves its plaintext at the destination and counts it. -/
theorem decrypted_eq_plaintext (s : State) (hwf : s.cfg.wf = true) (hm : s.regM ≠ 0)
    (hlt : s.regM < 2 ^ s.cfg.keyBits) (hlen : s.len.toNat % keyBytes s.cfg = 0)
    (hov : overlaps s.src.toNat s.len.toNat s.dst.toNat s.len.toNat = false) :
    s.decrypted.pos = s.plaintext.length ∧
      s.decrypted.mem.readBytes s.dst.toNat s.plaintext.length = s.plaintext := by
  obtain ⟨-, hW, -⟩ := keyBytes_bounds s.cfg hwf
  have hlen' : s.len.toNat / keyBytes s.cfg * keyBytes s.cfg = s.len.toNat :=
    Nat.div_mul_cancel (Nat.dvd_of_mod_eq_zero hlen)
  have hfit : ∀ v, modExp v s.regE s.regM < 2 ^ (8 * keyBytes s.cfg) := fun v =>
    modExp_lt v s.regE s.regM _ (by omega) (by rwa [hW])
  rw [overlaps_eq_false_iff] at hov
  obtain ⟨-, hpos, hmem⟩ := decryptBlocks_output (keyBytes s.cfg) s.regE s.regM s.src.toNat s.dst.toNat 0
    (s.len.toNat / keyBytes s.cfg) { mem := s.mem, pos := 0, fails := 0 } s.mem hfit (fun _ _ _ => rfl)
    (by simp only [Nat.zero_add, Nat.add_zero, Nat.zero_mul, hlen']; omega)
  rw [← List.range_eq_range'] at hpos hmem
  exact ⟨hpos.trans (Nat.zero_add _), hmem⟩

/-! ### The round trip (R176) -/

/-- A command that leaves ERR clear has succeeded: its writes took place (R97). -/
theorem runCommand_ok_of_err_false (i : Instr) (s t : State) (h : exec i s = .next t) (ht : t.err = false) :
    ∃ u, runCommand i s = .ok u ∧ t = u.finish := by
  rcases exec_cases i s t h with ⟨c, -, rfl⟩ | hok
  · simp at ht
  · exact hok

/-- What a successful ENCRYPT leaves. -/
theorem encrypt_ok (s t : State) (h : exec .encrypt s = .next t) (ht : t.err = false) :
    t.outlen = BitVec.ofNat 32 s.encLen ∧ s.dst.toNat + s.encLen ≤ s.cfg.bufBytes ∧
      overlaps s.src.toNat s.len.toNat s.dst.toNat s.encLen = false ∧
      encryptBlocks (keyBytes s.cfg) s.regE s.regM s.src.toNat s.dst.toNat 0
        (blocks s.len.toNat (keyBytes s.cfg - 1)) s.mem = .ok t.mem := by
  obtain ⟨r, hr, rfl⟩ := runCommand_ok_of_err_false .encrypt s t h ht
  rcases runEncrypt_cases s with ⟨c, hc, -⟩ | ⟨m, hok, -, -, hdst, hov, hm⟩
  · cases hc.symm.trans hr
  · cases hok.symm.trans hr
    exact ⟨rfl, hdst, hov, hm⟩

/-- What a successful DECRYPT leaves. -/
theorem decrypt_ok (s t : State) (h : exec .decrypt s = .next t) (ht : t.err = false) :
    t.outlen = BitVec.ofNat 32 s.decrypted.pos ∧ t.mem = s.decrypted.mem ∧
      s.len.toNat % keyBytes s.cfg = 0 ∧ s.regM ≠ 0 ∧
      overlaps s.src.toNat s.len.toNat s.dst.toNat s.len.toNat = false := by
  obtain ⟨r, hr, rfl⟩ := runCommand_ok_of_err_false .decrypt s t h ht
  rcases runDecrypt_cases s with ⟨c, hc, -⟩ | ⟨acc, hok, hlen, hm, -, -, hov, rfl⟩
  · cases hc.symm.trans hr
  · cases hok.symm.trans hr
    exact ⟨rfl, rfl, hlen, hm, hov⟩

/-- A source block is below a well-formed modulus: its at most `K - 1` bytes are (R176). -/
theorem beToInt_sourceBlock_lt (s : State) (hmod : modulusWf s.cfg s.regM = true) (i : Nat) :
    beToInt (s.sourceBlock i) < s.regM := by
  simp only [modulusWf, Bool.and_eq_true, decide_eq_true_eq, two_pow_eight_mul] at hmod
  calc beToInt (s.sourceBlock i) < 256 ^ (s.sourceBlock i).length := beToInt_lt _
    _ ≤ 256 ^ (keyBytes s.cfg - 1) := Nat.pow_le_pow_right (by omega) (length_sourceBlock_le s i)
    _ ≤ s.regM := hmod.1

/-- Where `u` holds the ciphertext of `s`, block by block, and the key's other exponent, the plaintext of `u` is the
message of `s`. -/
theorem plaintext_eq_message (s u : State) (hwf : s.cfg.wf = true) (hmod : modulusWf s.cfg s.regM = true)
    (hkey : validKey s.regM s.regE u.regE) (hcfg : u.cfg = s.cfg) (hregM : u.regM = s.regM)
    (hlen : u.len.toNat = s.encLen)
    (hnz : ∀ i, i < ceilDiv s.len.toNat (keyBytes s.cfg - 1) →
      s.mem.readByte (s.src.toNat + i * (keyBytes s.cfg - 1)) ≠ 0)
    (hcipher : ∀ i, i < ceilDiv s.len.toNat (keyBytes s.cfg - 1) →
      beToInt (u.mem.readBytes (u.src.toNat + i * keyBytes s.cfg) (keyBytes s.cfg)) =
        modExp (beToInt (s.sourceBlock i)) s.regE s.regM) :
    u.plaintext = s.mem.readBytes s.src.toNat s.len.toNat := by
  obtain ⟨hK, -, -⟩ := keyBytes_bounds s.cfg hwf
  rw [← flatten_sourceBlocks s hwf, State.plaintext, hcfg, hregM, hlen, State.encLen_eq,
    Nat.mul_div_cancel _ (by omega)]
  congr 1
  apply List.map_congr_left
  intro i hi
  rw [List.mem_range] at hi
  calc plainBlock (keyBytes s.cfg) u.regE s.regM u.src.toNat u.mem i
      = stripLeadingZeros (beBytes (modExp (modExp (beToInt (s.sourceBlock i)) s.regE s.regM) u.regE s.regM)
          (keyBytes s.cfg)) := by rw [plainBlock, hcipher i hi]
    _ = stripLeadingZeros (s.sourceBlock i) := by
        have hle := length_sourceBlock_le s i
        exact stripLeadingZeros_decrypted_block _ _ _ _ _ hkey (by omega) (beToInt_sourceBlock_lt s hmod i)
    _ = s.sourceBlock i := stripLeadingZeros_sourceBlock s i (hnz i hi)

/-- Settles O26: `u`'s source holds the ciphertext of `s` block by block, so what `u` decrypts to is the message. -/
theorem roundTrip : Obligations.RoundTrip := by
  intro s t u v hwf hmod hkey hnz _ henc hterr hcfg hregM hulen hbytes _ hdec hverr
  obtain ⟨htout, hdst, hsov, hm⟩ := encrypt_ok s t henc hterr
  obtain ⟨hvout, hvmem, humod, hum, huov⟩ := decrypt_ok u v hdec hverr
  have htlen : t.outlen.toNat = s.encLen := by
    obtain ⟨-, -, hbuf⟩ := keyBytes_bounds s.cfg hwf
    rw [htout, BitVec.toNat_ofNat, Nat.mod_eq_of_lt (by omega)]
  rw [htlen] at hbytes
  have hplain : u.plaintext = s.mem.readBytes s.src.toNat s.len.toNat := by
    refine plaintext_eq_message s u hwf hmod hkey hcfg hregM (by rw [hulen, htlen])
      (fun i hi => hnz i _ _ (getElem?_blocks_sourceBlock s i hi)) fun i hi => ?_
    have hend : i * keyBytes s.cfg + keyBytes s.cfg ≤ s.encLen := by
      rw [← Nat.succ_mul, State.encLen_eq]
      exact Nat.mul_le_mul_right _ hi
    rw [Memory.readBytes_part _ _ _ _ _ _ _ hbytes hend]
    exact beToInt_encrypted_block s t.mem hwf hsov hm i hi
  have hlt : u.regM < 2 ^ u.cfg.keyBits := by
    simp only [modulusWf, Bool.and_eq_true, decide_eq_true_eq] at hmod
    rw [hregM, hcfg]
    exact hmod.2
  obtain ⟨hpos, hmem⟩ := decrypted_eq_plaintext u (by rwa [hcfg]) hum hlt humod huov
  rw [hplain, Memory.length_readBytes] at hpos hmem
  exact ⟨by rw [hvout, hpos, BitVec.ofNat_toNat, BitVec.setWidth_eq], by rw [hvmem, hmem]⟩

end Sys2Proof.Machine
end

section
/-! SUPPORT. The proofs about how a command ends and the code it reports (60_exceptions.md R200 to R202, R205). -/

namespace Sys2Proof.Machine

/-! ### The two ways a command ends (R97, R200) -/

/-- A run that raises raises a code: `NONE` is no error (R201). -/
theorem runCommand_error_ne_noError (i : Instr) (s : State) (c : ErrCode) (h : runCommand i s = .error c) :
    c ≠ .noError := by
  cases i with
  | gcd => cases h
  | xgcd => cases h
  | modinv =>
    obtain ⟨hNoInverse, hModZero, hOk⟩ := runModinv_cases s
    by_cases hg : (extEuclid s.regA s.regM).g = 1
    · by_cases hm : s.regM = 0
      · cases (hModZero hg hm).symm.trans h
        simp
      · cases (hOk hg hm).symm.trans h
    · cases (hNoInverse hg).symm.trans h
      simp
  | modexp =>
    obtain ⟨hModZero, hOk⟩ := runModexp_cases s
    by_cases hm : s.regM = 0
    · cases (hModZero hm).symm.trans h
      simp
    · cases (hOk hm).symm.trans h
  | encrypt =>
    rcases runEncrypt_cases s with ⟨c', hc, hcode⟩ | ⟨m, hok, -⟩
    · cases hc.symm.trans h
      rcases hcode with rfl | rfl | rfl | rfl <;> simp
    · cases hok.symm.trans h
  | decrypt =>
    rcases runDecrypt_cases s with ⟨c', hc, hcode⟩ | ⟨acc, hok, -⟩
    · cases hc.symm.trans h
      rcases hcode with rfl | rfl | rfl | rfl <;> simp
    · cases hok.symm.trans h

/-- A run keeps the control registers and the error information: they are not among its writes (R26). -/
theorem runCommand_keeps_control (i : Instr) (s u : State) (h : runCommand i s = .ok u) :
    u.cmd = s.cmd ∧ u.ie = s.ie ∧ u.err = s.err ∧ u.errCode = s.errCode := by
  rw [runCommand_frame i s u h]
  exact ⟨rfl, rfl, rfl, rfl⟩

theorem exec_of_error (i : Instr) (s : State) (c : ErrCode) (h : runCommand i s = .error c) :
    exec i s = .next (s.raiseError c) := by
  rw [exec_eq, h]
  rfl

theorem exec_of_ok (i : Instr) (s u : State) (h : runCommand i s = .ok u) : exec i s = .next u.finish := by
  rw [exec_eq, h]
  rfl

/-- Every command ends, and in one of two ways: with a code and nothing written, or with its run's writes (R97,
R200). -/
theorem exec_ends (i : Instr) (s : State) :
    (∃ c, c ≠ .noError ∧ exec i s = .next (s.raiseError c)) ∨
    (∃ u, runCommand i s = .ok u ∧ exec i s = .next u.finish) := by
  cases h : runCommand i s with
  | error c => exact .inl ⟨c, runCommand_error_ne_noError i s c h, exec_of_error i s c h⟩
  | ok u => exact .inr ⟨u, rfl, exec_of_ok i s u h⟩

/-- Settles O7: a raised code touches STATUS and `phase` only, and the writes of a run that succeeds touch neither CMD
nor the error information. -/
theorem completionEndsTheCommand : Obligations.CompletionEndsTheCommand := by
  intro i s
  rcases exec_ends i s with ⟨c, hc, hexec⟩ | ⟨u, hrun, hexec⟩
  · exact ⟨_, hexec, rfl, rfl, rfl, .inl ⟨c, hc, rfl⟩⟩
  · obtain ⟨hcmd, -, herr, hcode⟩ := runCommand_keeps_control i s u hrun
    exact ⟨_, hexec, rfl, rfl, hcmd, .inr ⟨herr, hcode⟩⟩

/-! ### The order of the tests (R205) -/

/-- A command whose run raises nothing keeps the error information; GCD and XGCD are always such (R201). -/
theorem exec_keeps_error_of_ok (i : Instr) (s t u : State) (hrun : runCommand i s = .ok u)
    (h : exec i s = .next t) : t.err = s.err ∧ t.errCode = s.errCode := by
  obtain ⟨-, -, herr, hcode⟩ := runCommand_keeps_control i s u hrun
  cases (exec_of_ok i s u hrun).symm.trans h
  exact ⟨herr, hcode⟩

/-- Both range tests pass unless one range leaves the buffer (R165). -/
theorem rangeOk_and_eq_false_iff (p : Params) (a la b lb : Nat) :
    (rangeOk p a la && rangeOk p b lb) = false ↔ p.bufBytes < a + la ∨ p.bufBytes < b + lb := by
  simp only [rangeOk, Bool.and_eq_false_iff, decide_eq_false_iff_not, not_le]

/-- The overlap test finds a common byte where there is one (R166). -/
theorem overlaps_of_shareByte (a la b lb : Nat) (h : shareByte a la b lb) : overlaps a la b lb = true := by
  obtain ⟨i, ha, hla, hb, hlb⟩ := h
  simp only [overlaps, Bool.and_eq_true, decide_eq_true_eq]
  omega

/-- ENCRYPT's failures, in the order of its tests (R167, R205). -/
theorem runEncrypt_errors (s : State) :
    (s.regM = 0 → runEncrypt s = .error .modZero) ∧
    (s.regM ≠ 0 →
      (s.cfg.bufBytes < s.src.toNat + s.len.toNat ∨ s.cfg.bufBytes < s.dst.toNat + s.encLen) →
      runEncrypt s = .error .range) ∧
    (s.regM ≠ 0 → s.src.toNat + s.len.toNat ≤ s.cfg.bufBytes → s.dst.toNat + s.encLen ≤ s.cfg.bufBytes →
      shareByte s.src.toNat s.len.toNat s.dst.toNat s.encLen → runEncrypt s = .error .overlap) := by
  refine ⟨fun hm => if_pos hm, fun hm hrange => ?_, fun hm hsrc hdst hshare => ?_⟩
  · simp [runEncrypt, hm, (rangeOk_and_eq_false_iff _ _ _ _ _).mpr hrange]
  · simp [runEncrypt, hm, rangeOk, hsrc, hdst, overlaps_of_shareByte _ _ _ _ hshare]

/-- DECRYPT's failures, in the order of its tests (R171, R205). -/
theorem runDecrypt_errors (s : State) :
    (s.len.toNat % keyBytes s.cfg ≠ 0 → runDecrypt s = .error .malformed) ∧
    (s.len.toNat % keyBytes s.cfg = 0 → s.regM = 0 → runDecrypt s = .error .modZero) ∧
    (s.len.toNat % keyBytes s.cfg = 0 → s.regM ≠ 0 →
      (s.cfg.bufBytes < s.src.toNat + s.len.toNat ∨ s.cfg.bufBytes < s.dst.toNat + s.len.toNat) →
      runDecrypt s = .error .range) ∧
    (s.len.toNat % keyBytes s.cfg = 0 → s.regM ≠ 0 → s.src.toNat + s.len.toNat ≤ s.cfg.bufBytes →
      s.dst.toNat + s.len.toNat ≤ s.cfg.bufBytes →
      shareByte s.src.toNat s.len.toNat s.dst.toNat s.len.toNat → runDecrypt s = .error .overlap) := by
  refine ⟨fun hlen => if_pos hlen, fun hlen hm => ?_, fun hlen hm hrange => ?_, fun hlen hm hsrc hdst hshare => ?_⟩
  · simp [runDecrypt, hlen, hm]
  · simp [runDecrypt, hlen, hm, (rangeOk_and_eq_false_iff _ _ _ _ _).mpr hrange]
  · simp [runDecrypt, hlen, hm, rangeOk, hsrc, hdst, overlaps_of_shareByte _ _ _ _ hshare]

/-- Settles O8: each clause is one failure of a run, completed. -/
theorem commandsReportTheFirstError : Obligations.CommandsReportTheFirstError := by
  intro s
  obtain ⟨hinvNoInverse, hinvModZero, -⟩ := runModinv_cases s
  obtain ⟨hexpModZero, -⟩ := runModexp_cases s
  obtain ⟨hencModZero, hencRange, hencOverlap⟩ := runEncrypt_errors s
  obtain ⟨hdecMalformed, hdecModZero, hdecRange, hdecOverlap⟩ := runDecrypt_errors s
  rw [extEuclid_g] at hinvNoInverse hinvModZero
  refine ⟨fun hillegal => ?_, fun t h => ?_,
    fun hg => exec_of_error .modinv s _ (hinvNoInverse hg),
    fun hg hm => exec_of_error .modinv s _ (hinvModZero hg hm),
    fun hm => exec_of_error .modexp s _ (hexpModZero hm),
    fun hm => exec_of_error .encrypt s _ (hencModZero hm),
    fun hm hrange => exec_of_error .encrypt s _ (hencRange hm hrange),
    fun hm hsrc hdst hshare => exec_of_error .encrypt s _ (hencOverlap hm hsrc hdst hshare),
    fun hlen => exec_of_error .decrypt s _ (hdecMalformed hlen),
    fun hlen hm => exec_of_error .decrypt s _ (hdecModZero hlen hm),
    fun hlen hm hrange => exec_of_error .decrypt s _ (hdecRange hlen hm hrange),
    fun hlen hm hsrc hdst hshare => exec_of_error .decrypt s _ (hdecOverlap hlen hm hsrc hdst hshare)⟩
  · exact completeCommand_of_outsideOpcodeMap s ((exists_decode_eq_error_iff s.cmd).mp hillegal)
  · rcases h with h | h
    · exact exec_keeps_error_of_ok .gcd s t _ rfl h
    · exact exec_keeps_error_of_ok .xgcd s t _ rfl h

end Sys2Proof.Machine
end

section
/-! SUPPORT. The proofs about what moves STATUS and the interrupt output from step to step (60_exceptions.md R203, R207,
R208). -/

namespace Sys2Proof.Machine

/-! ### Which writes reach the error information (R203) -/

/-- The twelve control registers are distinct locations, and none is reserved space (R63). -/
theorem controlLocation_injective (m n : Nat) (hn : n < 12) (h : controlLocation m = controlLocation n) : m = n := by
  have hdistinct : ∀ n < 12, controlLocation n ≠ .reserved ∧
      ∀ m < 12, controlLocation m = controlLocation n → m = n := by decide
  obtain ⟨hreserved, hinj⟩ := hdistinct n hn
  by_cases hm : m < 12
  · exact hinj m hm h
  · exact absurd (h.symm.trans (controlLocation_reserved m (by omega))) hreserved

/-- Only the offset of a control register is placed at it (R63). -/
theorem wordOffset_of_locate_control (a : BusAddr) (n : Nat) (hn : n < 12) (h : locate a = controlLocation n) :
    wordOffset a = 4 * n := by
  have hnotWindow : ∀ n < 12, (∀ r j, controlLocation n ≠ .big r j) ∧ (∀ k, controlLocation n ≠ .buf k) ∧
      controlLocation n ≠ .reserved := by
    intro n hn
    interval_cases n <;> simp [controlLocation]
  obtain ⟨hbig, hbuf, hreserved⟩ := hnotWindow n hn
  rcases locate_cases a with ⟨-, hl⟩ | ⟨-, -, r, j, -, -, hl⟩ | ⟨-, -, hl⟩ | ⟨-, k, -, hl⟩
  · have hword := controlLocation_injective _ n hn (hl.symm.trans h)
    have haligned := wordOffset_eq a
    omega
  · exact absurd (h.symm.trans hl) (hbig r j)
  · exact absurd (h.symm.trans hl) hreserved
  · exact absurd (h.symm.trans hl) (hbuf k)

/-- A write takes its effect on the error information at CMD and STATUS only. -/
theorem writeLocation_keeps_error (s : State) (v : Word) (l : Location) (hcmd : l ≠ .cmd) (hstatus : l ≠ .status) :
    (s.writeLocation v l).err = s.err ∧ (s.writeLocation v l).errCode = s.errCode := by
  cases l with
  | cmd => contradiction
  | status => contradiction
  | big r j =>
    rw [State.writeLocation]
    split <;> simp
  | buf k =>
    rw [State.writeLocation]
    split <;> simp
  | _ => exact ⟨rfl, rfl⟩

/-- What a host write does to the error information: nothing, unless it is an acceptance or a write to STATUS. -/
theorem hostWrite_error_cases (s : State) (a : BusAddr) (v : Word) :
    (s.inReset = false ∧ s.phase = .idle ∧ wordOffset a = 0x010) ∨
    (s.inReset = false ∧ wordOffset a = 0x014 ∧ s.hostWrite a v = s.clearStatus v) ∨
    ((s.hostWrite a v).err = s.err ∧ (s.hostWrite a v).errCode = s.errCode) := by
  rcases hostWrite_cases s a v with ⟨-, h⟩ | ⟨-, -, -, h⟩ | ⟨hr, hp, h⟩
  · rw [h]
    exact .inr (.inr ⟨rfl, rfl⟩)
  · rw [h]
    exact .inr (.inr ⟨rfl, rfl⟩)
  · by_cases hcmd : locate a = .cmd
    · rw [hcmd] at hp
      exact .inl ⟨hr, hp.resolve_right (by simp [droppedWhileBusy]), wordOffset_of_locate_control a 4 (by decide) hcmd⟩
    · by_cases hstatus : locate a = .status
      · exact .inr (.inl ⟨hr, wordOffset_of_locate_control a 5 (by decide) hstatus, by rw [h, hstatus]; rfl⟩)
      · rw [h]
        exact .inr (.inr (writeLocation_keeps_error s v _ hcmd hstatus))

/-- What a step that does not change the level of reset does to the error information: a completion leaves or sets ERR,
an acceptance clears both, a write to STATUS may clear ERR, and every other step keeps both. -/
theorem step_error_cases (s t : State) (h : step s = .next t) (hreset : ¬ s.resets) :
    (s.enginesTurn ∧ s.phase = .busy ∧ (s.err = true → t.err = true)) ∨
    (s.phase = .idle ∧ ∃ w, s.writesTo 0x010 w) ∨
    (∃ v, s.writesTo 0x014 v ∧ t.err = (s.err && !v.getLsbD 2) ∧ t.errCode = s.errCode) ∨
    (t.err = s.err ∧ t.errCode = s.errCode) := by
  rcases step_cases s t h with ⟨-, -, rfl⟩ | ⟨hturn, hp, i, -, hexec⟩ | ⟨hturn, hp, -, rfl⟩ | ⟨a, rest, hs, rfl⟩ |
    ⟨a, v, rest, hs, rfl⟩ | ⟨b, rest, hs, rfl⟩
  · exact .inr (.inr (.inr ⟨rfl, rfl⟩))
  · refine .inl ⟨hturn, hp, fun herr => ?_⟩
    rcases exec_cases i s.popTurn t hexec with ⟨c, -, rfl⟩ | ⟨u, hrun, rfl⟩
    · rfl
    · obtain ⟨-, -, hkept, -⟩ := runCommand_keeps_control i s.popTurn u hrun
      exact hkept.trans herr
  · exact .inl ⟨hturn, hp, fun _ => rfl⟩
  · rw [hostRead_frame]
    exact .inr (.inr (.inr ⟨rfl, rfl⟩))
  · rcases hostWrite_error_cases s.popTurn a v with ⟨hr, hp, ha⟩ | ⟨hr, ha, hclear⟩ | hkept
    · exact .inr (.inl ⟨hp, v, hr, a, rest, hs, ha⟩)
    · rw [hclear]
      exact .inr (.inr (.inl ⟨v, ⟨hr, a, rest, hs, ha⟩, rfl, rfl⟩))
    · exact .inr (.inr (.inr hkept))
  · rw [(resets_or_kept s b rest hs).resolve_left hreset]
    exact .inr (.inr (.inr ⟨rfl, rfl⟩))

/-- Settles O34: of the steps that reach the error information, only completion and acceptance touch ERRCODE, and
completion clears no ERR. -/
theorem errorInformationIsKept : Obligations.ErrorInformationIsKept := by
  intro s t h hreset
  rcases step_error_cases s t h hreset with ⟨hturn, hp, herr⟩ | haccept | ⟨v, hw, herr, hcode⟩ | ⟨herr, hcode⟩
  · exact ⟨fun _ => .inl ⟨hturn, hp⟩, fun hs ht => by simp [herr hs] at ht⟩
  · exact ⟨fun _ => .inr haccept, fun _ _ => .inr haccept⟩
  · refine ⟨fun hne => absurd hcode hne, fun hs ht => .inl ⟨v, hw, ?_⟩⟩
    simpa [herr, hs] using ht
  · exact ⟨fun hne => absurd hcode hne, fun hs ht => by simp [herr, hs] at ht⟩

/-! ### The interrupt output (R207, R208) -/

/-- CTRL is the control register at offset `0x00C` (R63). -/
theorem locate_ctrl (a : BusAddr) (h : wordOffset a = 0x00C) : locate a = .ctrl :=
  locate_of_control a 3 (by decide) h

/-- Outside reset, idle or busy, a write to CTRL stores IE (R35). -/
theorem hostWrite_ctrl (s : State) (a : BusAddr) (v : Word) (hr : s.inReset = false) (ha : wordOffset a = 0x00C) :
    s.hostWrite a v = s.setCtrl v := by
  have hl := locate_ctrl a ha
  rw [hostWrite_eq_writeLocation s a v hr (by rw [hl]; rfl), hl]
  rfl

/-- Complete sets DONE and keeps IE, whatever the word in CMD (R97). -/
theorem completeCommand_sets_done (s t : State) (h : completeCommand s = .next t) : t.done = true ∧ t.ie = s.ie := by
  unfold completeCommand at h
  split at h
  next i _ =>
    rcases exec_cases i s t h with ⟨c, -, rfl⟩ | ⟨u, hrun, rfl⟩
    · exact ⟨rfl, rfl⟩
    · obtain ⟨-, hie, -, -⟩ := runCommand_keeps_control i s u hrun
      exact ⟨rfl, hie⟩
  next =>
    cases h
    exact ⟨rfl, rfl⟩

/-- A step on the engine's turn, in the schedule or after it. -/
theorem step_of_enginesTurn (s : State) (h : s.enginesTurn) : step s = engineTurn s.popTurn := by
  rcases h with hs | ⟨rest, hs⟩
  · have hpop : s.popTurn = s := by rw [State.popTurn, hs, List.tail_nil, ← hs]
    simp [step, nextTurn, hs, hpop]
  · rw [step_engine s rest hs, State.popTurn, hs, List.tail_cons]

/-- Settles O53: each cause on the two bits that `irq` is made of. -/
theorem interruptOutput : Obligations.InterruptOutput := by
  refine ⟨fun s => by simp [State.irq], fun s t hturn hp h => ?_, fun s t w hw hp h => ?_, fun s t v hw hv h => ?_,
    fun s t v hw h => ?_⟩
  · rw [step_of_enginesTurn s hturn, engineTurn_of_busy s.popTurn hp] at h
    obtain ⟨hdone, hie⟩ := completeCommand_sets_done s.popTurn t h
    rw [State.irq, hdone, hie, Bool.true_and]
    rfl
  all_goals obtain ⟨hr, a, rest, hs, ha⟩ := hw
  · rw [step_write_cmd_of_idle s a w rest hs ha hr hp] at h
    cases h
    rfl
  · rw [step_write s a v rest hs, hostWrite_status { s with schedule := rest } a v hr ha] at h
    cases h
    simp [State.irq, hv]
  · rw [step_write s a v rest hs, hostWrite_ctrl { s with schedule := rest } a v hr ha] at h
    cases h
    rfl

end Sys2Proof.Machine
end

section
/-! SUPPORT. The proofs about the host's accesses while reset is asserted and while the engine is busy
(70_reset_and_hazards.md R232, R235, R236). -/

namespace Sys2Proof.Machine

/-! ### Accesses while reset is asserted (R232) -/

theorem hostRead_of_inReset (s : State) (a : BusAddr) (hr : s.inReset = true) : s.hostRead a = s.answer 0 := by
  rcases hostRead_cases s a with ⟨_, h⟩ | ⟨hr', _⟩ | ⟨hr', _⟩
  · exact h
  · simp [hr] at hr'
  · simp [hr] at hr'

theorem hostWrite_of_inReset (s : State) (a : BusAddr) (v : Word) (hr : s.inReset = true) : s.hostWrite a v = s := by
  rcases hostWrite_cases s a v with ⟨_, h⟩ | ⟨hr', _⟩ | ⟨hr', _⟩
  · exact h
  · simp [hr] at hr'
  · simp [hr] at hr'

/-- Settles O52: of the cases of an access, reset leaves the one that answers 0 and the one that does nothing. -/
theorem accessesInReset : Obligations.AccessesInReset := by
  intro s addr v rest hr
  constructor
  · intro hs
    rw [step_read s addr rest hs, hostRead_of_inReset { s with schedule := rest } addr hr]
    rfl
  · intro hs
    rw [step_write s addr v rest hs, hostWrite_of_inReset { s with schedule := rest } addr v hr]

/-! ### Writes while busy (R236) -/

/-- Of the control registers, the engine withholds CMD, SRC, DST and LEN. -/
theorem droppedWhileBusy_controlLocation (n : Nat) :
    droppedWhileBusy (controlLocation n) = true ↔ n = 4 ∨ n = 6 ∨ n = 7 ∨ n = 8 := by
  by_cases hn : n < 12
  · interval_cases n <;> decide
  · rw [controlLocation_reserved n (by omega)]
    exact iff_of_false Bool.false_ne_true (by omega)

/-- The offsets whose busy writes are dropped: four control registers and the two windows. -/
theorem droppedWhileBusy_locate_iff (a : BusAddr) :
    droppedWhileBusy (locate a) = true ↔
      wordOffset a = 0x010 ∨ wordOffset a = 0x018 ∨ wordOffset a = 0x01C ∨ wordOffset a = 0x020 ∨
        (0x01000 ≤ wordOffset a ∧ wordOffset a < 0x01C00) ∨ 0x10000 ≤ wordOffset a := by
  have haligned := wordOffset_eq a
  rcases locate_cases a with ⟨hlt, hl⟩ | ⟨hge, hlt, r, j, -, -, hl⟩ | ⟨hge, hlt, hl⟩ | ⟨hge, k, -, hl⟩ <;> rw [hl]
  · rw [droppedWhileBusy_controlLocation]
    omega
  · exact iff_of_true rfl (by omega)
  · exact iff_of_false Bool.false_ne_true (by omega)
  · exact iff_of_true rfl (by omega)

/-- Of the locations that are not withheld while busy, only CTRL and STATUS take a write. -/
theorem writeLocation_of_not_dropped (s : State) (v : Word) (l : Location) (hd : droppedWhileBusy l = false)
    (hctrl : l ≠ .ctrl) (hstatus : l ≠ .status) : s.writeLocation v l = s := by
  cases l with
  | ctrl => contradiction
  | status => contradiction
  | cmd | src | dst | len | big | buf => simp [droppedWhileBusy] at hd
  | id | keybits | bufbytes | outlen | failcnt | xsign | reserved => rfl

/-- Settles O39: a withheld offset drops the write, and of the others CTRL and STATUS are the only two that take one. -/
theorem busyWritesAreDropped : Obligations.BusyWritesAreDropped := by
  intro s addr v rest hs hr hp
  rw [step_write s addr v rest hs]
  split_ifs with hdropped hctrl hstatus
  · rw [hostWrite_of_busy { s with schedule := rest } addr v hr hp ((droppedWhileBusy_locate_iff addr).mpr hdropped)]
    rfl
  · rw [hostWrite_ctrl { s with schedule := rest } addr v hr hctrl]
    rfl
  · rw [hostWrite_status { s with schedule := rest } addr v hr hstatus]
    rfl
  · have hd : droppedWhileBusy (locate addr) = false :=
      Bool.eq_false_iff.mpr fun h => hdropped ((droppedWhileBusy_locate_iff addr).mp h)
    rw [hostWrite_eq_writeLocation { s with schedule := rest } addr v hr hd,
      writeLocation_of_not_dropped { s with schedule := rest } v _ hd
        (fun h => hctrl (wordOffset_of_locate_control addr 3 (by decide) h))
        (fun h => hstatus (wordOffset_of_locate_control addr 5 (by decide) h))]

/-! ### Reads while busy (R235) -/

/-- Outside reset, a read made while busy where R235 leaves the answer open is a fresh draw. -/
theorem hostRead_of_busy (s : State) (a : BusAddr) (hr : s.inReset = false) (hp : s.phase = .busy)
    (hu : unspecifiedWhileBusy s.cfg (locate a) = true) : s.hostRead a = s.answerFree := by
  rcases hostRead_cases s a with ⟨hr', _⟩ | ⟨_, _, _, h⟩ | ⟨_, hp' | hu', _⟩
  · simp [hr] at hr'
  · exact h
  · simp [hp] at hp'
  · simp [hu] at hu'

/-- Of the control registers, OUTLEN, FAILCNT and XSIGN have no known value while busy. -/
theorem unspecifiedWhileBusy_controlLocation (p : Params) (n : Nat) :
    unspecifiedWhileBusy p (controlLocation n) = true ↔ n = 9 ∨ n = 10 ∨ n = 11 := by
  by_cases hn : n < 12
  · interval_cases n <;> simp [controlLocation, unspecifiedWhileBusy]
  · rw [controlLocation_reserved n (by omega)]
    exact iff_of_false Bool.false_ne_true (by omega)

/-- The result registers are the upper half of the big-register window. -/
theorem hostWritable_eq_false_iff (r : BigReg) (j : Nat) (hj : j < 128) :
    hostWritable r = false ↔ 0x01600 ≤ bigOffset r j := by
  cases r with
  | A | E | M => exact iff_of_false Bool.noConfusion (by simp only [bigOffset, bigRegIndex]; omega)
  | R | X | Y => exact iff_of_true rfl (by simp only [bigOffset, bigRegIndex]; omega)

/-- The offsets whose busy reads are free: the results, their control registers and the mapped buffer words. -/
theorem unspecifiedWhileBusy_locate_iff (p : Params) (a : BusAddr) :
    unspecifiedWhileBusy p (locate a) = true ↔
      (0x01600 ≤ wordOffset a ∧ wordOffset a < 0x01C00) ∨ wordOffset a = 0x024 ∨ wordOffset a = 0x028 ∨
        wordOffset a = 0x02C ∨ (0x10000 ≤ wordOffset a ∧ wordOffset a - 0x10000 < p.bufBytes) := by
  have haligned := wordOffset_eq a
  rcases locate_cases a with ⟨hlt, hl⟩ | ⟨hge, hlt, r, j, hj, hoff, hl⟩ | ⟨hge, hlt, hl⟩ | ⟨hge, k, hoff, hl⟩ <;>
    rw [hl]
  · rw [unspecifiedWhileBusy_controlLocation]
    omega
  · rw [unspecifiedWhileBusy, Bool.not_eq_true', hostWritable_eq_false_iff r j hj, ← hoff]
    omega
  · exact iff_of_false Bool.false_ne_true (by omega)
  · rw [unspecifiedWhileBusy, decide_eq_true_iff]
    omega

/-- STATUS alone shows the phase, and no location shows the schedule. -/
theorem readLocation_of_ne_status (s : State) (ph : Phase) (rest : List Turn) (l : Location) (hstatus : l ≠ .status) :
    ({ s with schedule := rest } : State).readLocation l = ({ s with phase := ph } : State).readLocation l := by
  cases l with
  | status => contradiction
  | big r j => cases r <;> rfl
  | _ => rfl

/-- Settles O40: the offsets that R235 names answer a draw, and the value at every other one but STATUS is the one that
the same state shows while idle. -/
theorem busyReads : Obligations.BusyReads := by
  intro s addr rest hs hr hp
  rw [step_read s addr rest hs]
  split_ifs with hfree hstatus
  · rw [hostRead_of_busy { s with schedule := rest } addr hr hp
      ((unspecifiedWhileBusy_locate_iff s.cfg addr).mpr hfree)]
    rfl
  · rw [hostRead_status { s with schedule := rest } addr hr hstatus]
    rfl
  · have hu : unspecifiedWhileBusy s.cfg (locate addr) = false :=
      Bool.eq_false_iff.mpr fun h => hfree ((unspecifiedWhileBusy_locate_iff s.cfg addr).mp h)
    rw [hostRead_eq_answer { s with schedule := rest } addr hr hu,
      readLocation_of_ne_status s .idle rest _
        (fun h => hstatus (wordOffset_of_locate_control addr 5 (by decide) h))]
    rfl

end Sys2Proof.Machine
end

section
/-! SUPPORT. What a write that is not dropped does to a word of the two windows, said once (20_memory.md R64, R66), and
the bounds of a legal build (00_scope.md R7, R10). -/

namespace Sys2Proof.Machine

theorem bounds_of_wf (p : Params) (h : p.wf = true) :
    16 ≤ p.keyBits ∧ p.keyBits ≤ 4096 ∧ p.bufBytes % 4 = 0 ∧ p.bufBytes ≤ 65536 := by
  simp only [Params.wf, Params.keyBitsLegal, Params.bufBytesLegal, Bool.and_eq_true, beq_iff_eq,
    decide_eq_true_eq] at h
  omega

theorem writeLocation_big_ignored (s : State) (v : Word) (r : BigReg) (j : Nat)
    (h : hostWritable r = false ∨ numWords s.cfg ≤ j) : s.writeLocation v (.big r j) = s := by
  rw [State.writeLocation, if_neg]
  rw [Bool.and_eq_true, decide_eq_true_iff]
  rintro ⟨hw, hj⟩
  rcases h with h | h
  · simp [h] at hw
  · omega

/-- A write to a word of a big register is ignored, or the register is the host's and the word is below `NW`. -/
theorem writeLocation_big_outcomes (s : State) (v : Word) (r : BigReg) (j : Nat) :
    s.writeLocation v (.big r j) = s ∨
      (hostWritable r = true ∧ j < numWords s.cfg ∧
        s.writeLocation v (.big r j) = s.setBig r (putBigWord s.cfg.keyBits (s.big r) j v)) := by
  cases hw : hostWritable r with
  | false => exact .inl (writeLocation_big_ignored s v r j (.inl hw))
  | true =>
    by_cases hj : j < numWords s.cfg
    · exact .inr ⟨rfl, hj, writeLocation_big s v r j hw hj⟩
    · exact .inl (writeLocation_big_ignored s v r j (.inr (Nat.not_lt.mp hj)))

/-- The four bytes of a bus word, lowest first. -/
def lanes (v : Word) : List Byte := [lane v 0, lane v 1, lane v 2, lane v 3]

@[simp] theorem length_lanes (v : Word) : (lanes v).length = 4 := rfl

theorem writeLocation_buf (s : State) (v : Word) (k : Nat) (hk : 4 * k < s.cfg.bufBytes) :
    s.writeLocation v (.buf k) = { s with mem := s.mem.writeBytes (4 * k) (lanes v) } := if_pos hk

theorem writeLocation_buf_ignored (s : State) (v : Word) (k : Nat) (h : s.cfg.bufBytes ≤ 4 * k) :
    s.writeLocation v (.buf k) = s := if_neg (Nat.not_lt.mpr h)

/-- A write to a word of the buffer window is ignored, or the word is mapped and takes the lanes. -/
theorem writeLocation_buf_outcomes (s : State) (v : Word) (k : Nat) :
    s.writeLocation v (.buf k) = s ∨
      (4 * k < s.cfg.bufBytes ∧
        s.writeLocation v (.buf k) = { s with mem := s.mem.writeBytes (4 * k) (lanes v) }) := by
  by_cases hk : 4 * k < s.cfg.bufBytes
  · exact .inr ⟨hk, writeLocation_buf s v k hk⟩
  · exact .inl (writeLocation_buf_ignored s v k (Nat.not_lt.mp hk))

end Sys2Proof.Machine
end

section
/-! SUPPORT. The proofs about ENCRYPT and DECRYPT with their checks passed (42_block_cipher.md R167, R171, R172). -/

namespace Sys2Proof.Machine

/-- Ranges without a common byte pass the overlap test (R166): the higher of the two offsets would be one. -/
theorem overlaps_eq_false_of_not_shareByte (a la b lb : Nat) (h : ¬ shareByte a la b lb) :
    overlaps a la b lb = false := by
  rw [overlaps_eq_false_iff]
  by_contra hne
  exact h ⟨max a b, by omega⟩

/-- A modulus of a build's width keeps every block within its `K` bytes (R168). -/
theorem modExp_fits (p : Params) (hwf : p.wf = true) (base exp mod : Nat) (hm : mod ≠ 0) (hlt : mod < 2 ^ p.keyBits) :
    modExp base exp mod < 2 ^ (8 * keyBytes p) := by
  obtain ⟨-, hW, -⟩ := keyBytes_bounds p hwf
  rw [hW]
  exact modExp_lt base exp mod _ (Nat.pos_of_ne_zero hm) hlt

/-- A byte count within a legal build's buffer fits a register (R10). -/
theorem toNat_ofNat_of_le_bufBytes (p : Params) (hwf : p.wf = true) (n : Nat) (hn : n ≤ p.bufBytes) :
    (BitVec.ofNat 32 n).toNat = n := by
  obtain ⟨-, -, hbuf⟩ := keyBytes_bounds p hwf
  rw [BitVec.toNat_ofNat, Nat.mod_eq_of_lt (by omega)]

/-! ### ENCRYPT -/

/-- ENCRYPT's loop on the buffer as it stands ends with the buffer `m` (R167). -/
def State.encryptsTo (s : State) (m : Memory) : Prop :=
  encryptBlocks (keyBytes s.cfg) s.regE s.regM s.src.toNat s.dst.toNat 0
    (blocks s.len.toNat (keyBytes s.cfg - 1)) s.mem = .ok m

/-- With its checks passed ENCRYPT succeeds: no block overflows (R168). -/
theorem runEncrypt_ok_of_checks (s : State) (hwf : s.cfg.wf = true) (hm : s.regM ≠ 0) (hlt : s.regM < 2 ^ s.cfg.keyBits)
    (hsrc : s.src.toNat + s.len.toNat ≤ s.cfg.bufBytes) (hdst : s.dst.toNat + s.encLen ≤ s.cfg.bufBytes)
    (hshare : ¬ shareByte s.src.toNat s.len.toNat s.dst.toNat s.encLen) :
    ∃ m, s.encryptsTo m ∧
      runEncrypt s = .ok { s with mem := m, outlen := BitVec.ofNat 32 s.encLen, failcnt := 0 } := by
  obtain ⟨m, hloop⟩ := encryptBlocks_ok (keyBytes s.cfg) s.regE s.regM s.src.toNat s.dst.toNat 0
    (blocks s.len.toNat (keyBytes s.cfg - 1)) s.mem fun v => modExp_fits s.cfg hwf v _ _ hm hlt
  refine ⟨m, hloop, ?_⟩
  rw [runEncrypt_of_checks s hm hsrc hdst (overlaps_eq_false_of_not_shareByte _ _ _ _ hshare), hloop]
  rfl

/-- After ENCRYPT's loop block `i` of the destination is the exponentiated integer of block `i` of the message. -/
theorem encryptsTo_block (s : State) (m : Memory) (hwf : s.cfg.wf = true) (h : s.encryptsTo m)
    (hov : overlaps s.src.toNat s.len.toNat s.dst.toNat s.encLen = false) (i off n : Nat)
    (hi : (blocks s.len.toNat (keyBytes s.cfg - 1))[i]? = some (off, n)) :
    intToBe (modExp (beToInt (s.mem.readBytes (s.src.toNat + off) n)) s.regE s.regM) (keyBytes s.cfg) =
      .ok (m.readBytes (s.dst.toNat + i * keyBytes s.cfg) (keyBytes s.cfg)) := by
  rw [← Nat.zero_add i]
  refine encryptBlocks_block _ _ _ _ _ 0 _ _ _ h ?_ i off n hi
  simpa only [length_blocks, Nat.zero_add, Nat.zero_mul, Nat.add_zero, ← State.encLen_eq] using blocks_apart s hwf hov

theorem encryptsTo_outside (s : State) (m : Memory) (h : s.encryptsTo m) (a : Nat)
    (ha : a < s.dst.toNat ∨ s.dst.toNat + s.encLen ≤ a) : m.readByte a = s.mem.readByte a := by
  refine encryptBlocks_outside _ _ _ _ _ 0 _ _ _ h a ?_
  simpa only [length_blocks, Nat.zero_add, Nat.zero_mul, Nat.add_zero, ← State.encLen_eq] using ha

/-- Settles O21: the checks passed, the run is its loop, which no block makes fail. -/
theorem encryptCompletes : Obligations.EncryptCompletes := by
  intro s hwf hm hlt hsrc hdst hshare
  obtain ⟨m, hloop, hrun⟩ := runEncrypt_ok_of_checks s hwf hm hlt hsrc hdst hshare
  exact ⟨m, exec_of_ok .encrypt s _ hrun, toNat_ofNat_of_le_bufBytes s.cfg hwf s.encLen (by omega),
    encryptsTo_block s m hwf hloop (overlaps_eq_false_of_not_shareByte _ _ _ _ hshare), encryptsTo_outside s m hloop⟩

/-! ### DECRYPT -/

/-- Where every block fits its width none is skipped (R172). -/
theorem decryptBlocks_fails (k d n src dst i left : Nat) (acc : DecryptAcc) (hfit : ∀ v, modExp v d n < 2 ^ (8 * k)) :
    (decryptBlocks k d n src dst i left acc).fails = acc.fails := by
  induction left generalizing i acc with
  | zero => rfl
  | succ left ih =>
    rw [decryptBlocks, ih]
    rcases decryptPut_cases k dst (modExp (beToInt (acc.mem.readBytes (src + i * k) k)) d n) acc with ⟨hp, -⟩ | ⟨-, hp⟩
    · exact absurd (hfit _) (Nat.not_lt.mpr hp)
    · rw [hp]

theorem decrypted_fails (s : State) (hwf : s.cfg.wf = true) (hm : s.regM ≠ 0) (hlt : s.regM < 2 ^ s.cfg.keyBits) :
    s.decrypted.fails = 0 :=
  decryptBlocks_fails _ _ _ _ _ _ _ _ fun v => modExp_fits s.cfg hwf v _ _ hm hlt

/-- DECRYPT's output is no longer than its message, and outside it the loop keeps the buffer. -/
theorem decrypted_frame (s : State) :
    s.decrypted.pos ≤ s.len.toNat ∧
    (∀ a, a < s.dst.toNat ∨ s.dst.toNat + s.decrypted.pos ≤ a → s.decrypted.mem.readByte a = s.mem.readByte a) ∧
    (s.mem.wf = true → s.decrypted.mem.wf = true) ∧
    (s.dst.toNat + s.len.toNat ≤ s.cfg.bufBytes → s.mem.below s.cfg.bufBytes = true →
      s.decrypted.mem.below s.cfg.bufBytes = true) := by
  have hblocks := Nat.div_mul_le_self s.len.toNat (keyBytes s.cfg)
  obtain ⟨hpos, houtside, -, hmemWf, hbelow⟩ := decryptBlocks_frame (keyBytes s.cfg) s.regE s.regM s.src.toNat
    s.dst.toNat 0 (s.len.toNat / keyBytes s.cfg) { mem := s.mem, pos := 0, fails := 0 }
  simp only [Nat.zero_add, Nat.add_zero] at hpos houtside hbelow
  exact ⟨hpos.trans hblocks, houtside, hmemWf, fun hdst => hbelow _ (by omega)⟩

/-- Settles O22: the checks passed, the run is its loop, which skips no block. -/
theorem decryptCompletes : Obligations.DecryptCompletes := by
  intro s hwf hlen hm hlt hsrc hdst hshare
  have hov := overlaps_eq_false_of_not_shareByte _ _ _ _ hshare
  have hrun := runDecrypt_of_checks s hlen hm hsrc hdst hov
  obtain ⟨hpos, hmem⟩ := decrypted_eq_plaintext s hwf hm hlt hlen hov
  obtain ⟨hle, houtside, -, -⟩ := decrypted_frame s
  rw [hpos] at hle houtside
  rw [hpos, decrypted_fails s hwf hm hlt] at hrun
  exact ⟨s.decrypted.mem, s.plaintext, rfl, exec_of_ok .decrypt s _ hrun,
    toNat_ofNat_of_le_bufBytes s.cfg hwf _ (by omega), hle, hmem, houtside⟩

end Sys2Proof.Machine
end

section
/-! SUPPORT. The proofs about which fields each command writes and which it leaves (10_state.md R23, R26;
40_extended_gcd.md R126 to R128, 41_modexp.md R145, 42_block_cipher.md R167, R171). -/

namespace Sys2Proof.Machine

/-! ### The runs -/

/-- MODINV either raises one of its two codes or writes an inverse below the modulus to `R`, and nothing else. -/
theorem runModinv_outcomes (s : State) :
    runModinv s = .error .noInverse ∨ runModinv s = .error .modZero ∨
      ∃ v, v < s.regM ∧ runModinv s = .ok { s with regR := v } := by
  obtain ⟨hNoInverse, hModZero, hOk⟩ := runModinv_cases s
  by_cases hg : (extEuclid s.regA s.regM).g = 1
  · by_cases hm : s.regM = 0
    · exact .inr (.inl (hModZero hg hm))
    · have hgcd : Nat.gcd s.regA s.regM = 1 := by rwa [extEuclid_g] at hg
      exact .inr (.inr ⟨_, (extEuclid_x_emod_is_inverse _ _ hgcd hm).1, hOk hg hm⟩)
  · exact .inl (hNoInverse hg)

theorem runModexp_outcomes (s : State) :
    runModexp s = .error .modZero ∨
      (s.regM ≠ 0 ∧ runModexp s = .ok { s with regR := modExp s.regA s.regE s.regM }) := by
  obtain ⟨hModZero, hOk⟩ := runModexp_cases s
  by_cases hm : s.regM = 0
  · exact .inl (hModZero hm)
  · exact .inr ⟨hm, hOk hm⟩

/-- GCD, MODINV and MODEXP write `R` and nothing else. -/
theorem runCommand_writes_R (i : Instr) (s u : State) (hi : i = .gcd ∨ i = .modinv ∨ i = .modexp)
    (hrun : runCommand i s = .ok u) : ∃ v, u = { s with regR := v } := by
  rcases hi with rfl | rfl | rfl
  · cases hrun
    exact ⟨_, rfl⟩
  · rcases runModinv_outcomes s with h | h | ⟨v, -, h⟩ <;> cases h.symm.trans hrun
    exact ⟨v, rfl⟩
  · rcases runModexp_outcomes s with h | ⟨-, h⟩ <;> cases h.symm.trans hrun
    exact ⟨_, rfl⟩

/-- ENCRYPT and DECRYPT write the buffer, OUTLEN and FAILCNT, and nothing else. -/
theorem runCommand_writes_buffer (i : Instr) (s u : State) (hi : i = .encrypt ∨ i = .decrypt)
    (hrun : runCommand i s = .ok u) : ∃ m n f, u = { s with mem := m, outlen := n, failcnt := f } := by
  rcases hi with rfl | rfl
  · rcases runEncrypt_cases s with ⟨c, h, -⟩ | ⟨m, h, -⟩ <;> cases h.symm.trans hrun
    exact ⟨_, _, _, rfl⟩
  · rcases runDecrypt_cases s with ⟨c, h, -⟩ | ⟨acc, h, -⟩ <;> cases h.symm.trans hrun
    exact ⟨_, _, _, rfl⟩

/-- How many bytes from DST on a command may write (R164, R167, R171). -/
def State.destLen (s : State) : Instr → Nat
  | .encrypt => s.encLen
  | .decrypt => s.len.toNat
  | _ => 0

/-- A run keeps every byte outside its destination range. -/
theorem runCommand_outside (i : Instr) (s u : State) (hrun : runCommand i s = .ok u) (a : Nat)
    (ha : a < s.dst.toNat ∨ s.dst.toNat + s.destLen i ≤ a) : u.mem.readByte a = s.mem.readByte a := by
  cases i with
  | gcd =>
    cases hrun
    rfl
  | xgcd =>
    cases hrun
    rfl
  | modinv =>
    obtain ⟨v, rfl⟩ := runCommand_writes_R .modinv s u (by simp) hrun
    rfl
  | modexp =>
    obtain ⟨v, rfl⟩ := runCommand_writes_R .modexp s u (by simp) hrun
    rfl
  | encrypt =>
    rcases runEncrypt_cases s with ⟨c, h, -⟩ | ⟨m, h, -, -, -, -, hloop⟩ <;> cases h.symm.trans hrun
    exact encryptsTo_outside s m hloop a ha
  | decrypt =>
    rcases runDecrypt_cases s with ⟨c, h, -⟩ | ⟨acc, h, -, -, -, -, -, hacc⟩ <;> cases h.symm.trans hrun
    obtain rfl : acc = s.decrypted := hacc
    obtain ⟨hpos, houtside, -, -⟩ := decrypted_frame s
    simp only [State.destLen] at ha
    exact houtside a (by omega)

/-! ### The frames -/

/-- Settles O17: a raised code touches STATUS and `phase` only, XGCD writes its triple, and the others write `R`. -/
theorem arithmeticCommandsFrame : Obligations.ArithmeticCommandsFrame := by
  intro i s t hi hexec
  rcases exec_cases i s t hexec with ⟨c, -, rfl⟩ | ⟨u, hrun, rfl⟩
  · simp
  · by_cases hx : i = .xgcd
    · subst hx
      cases hrun
      simp
    · obtain ⟨v, rfl⟩ := runCommand_writes_R i s u (by tauto) hrun
      simp

/-- Settles O24: a raised code touches STATUS and `phase` only, and a run keeps the bytes outside its destination. -/
theorem blockCommandsFrame : Obligations.BlockCommandsFrame := by
  intro i s t hi hexec
  rcases exec_cases i s t hexec with ⟨c, -, rfl⟩ | ⟨u, hrun, rfl⟩
  · simp
  · have houtside : ∀ a, (i = .encrypt → a < s.dst.toNat ∨ s.dst.toNat + s.encLen ≤ a) →
        (i = .decrypt → a < s.dst.toNat ∨ s.dst.toNat + s.len.toNat ≤ a) → u.mem.readByte a = s.mem.readByte a := by
      intro a henc hdec
      refine runCommand_outside i s u hrun a ?_
      rcases hi with rfl | rfl
      · exact henc rfl
      · exact hdec rfl
    obtain ⟨m, n, f, rfl⟩ := runCommand_writes_buffer i s u hi hrun
    simpa using houtside

end Sys2Proof.Machine
end

section
/-! SUPPORT. The invariant of every state a run reaches (`State.Inv`): the state after reset meets it, and each kind of
turn keeps it. -/

namespace Sys2Proof.Machine

/-! ### Reset (R44, R230) -/

/-- Settles O28. -/
theorem resetStateMeetsTheInvariant : Obligations.ResetStateMeetsTheInvariant where
  cfgLegal := by decide
  bigInRange r := by cases r <;> exact Nat.two_pow_pos _
  memWf := rfl
  memBelow := rfl
  outlenInBuf := Nat.zero_le _
  failcntZero := rfl
  noEncOverflow := by decide
  errHasCode := by decide
  busyClear := by decide
  noNegativeZero := by decide
  heldInReset := by decide

/-- A command in flight has reset released: while it is asserted `phase` holds its reset value (R230). -/
theorem State.Inv.inReset_of_busy {s : State} (h : s.Inv) (hp : s.phase = .busy) : s.inReset = false := by
  by_contra hr
  have hidle : s.resetRegs.phase = .idle := rfl
  rw [h.heldInReset (by simpa using hr), hp] at hidle
  cases hidle

/-- The range that an abandoned command may have written is empty or lies in the buffer (R230). -/
theorem abandonedRange_in_buffer (s : State) :
    s.abandonedRange.2 = 0 ∨ s.abandonedRange.1 + s.abandonedRange.2 ≤ s.cfg.bufBytes := by
  unfold State.abandonedRange
  split
  all_goals simp only
  all_goals omega

theorem abandon_mem_below (s : State) (h : s.mem.below s.cfg.bufBytes = true) :
    s.abandon.mem.below s.cfg.bufBytes = true := by
  rw [State.abandon_mem]
  rcases abandonedRange_in_buffer s with h0 | hin
  · rw [h0]
    exact h
  · exact Memory.below_scramble _ _ _ _ _ hin h

theorem resetRegs_inv {s : State} (h : s.Inv) : s.resetRegs.Inv where
  cfgLegal := h.cfgLegal
  bigInRange r := by
    rw [State.big_resetRegs]
    exact Nat.two_pow_pos _
  memWf := h.memWf
  memBelow := h.memBelow
  outlenInBuf := Nat.zero_le _
  failcntZero := rfl
  noEncOverflow := by simp
  errHasCode := by simp
  busyClear := by simp
  noNegativeZero := by simp
  heldInReset _ := State.resetRegs_resetRegs s

/-- With the registers at their reset values the level of reset is free. -/
theorem resetRegs_level_inv {s : State} (h : s.resetRegs.Inv) (level : Bool) :
    ({ s.resetRegs with inReset := level } : State).Inv :=
  { h with heldInReset := fun _ => rfl }

theorem abandon_resetRegs_inv {s : State} (h : s.Inv) : s.abandon.resetRegs.Inv :=
  { resetRegs_inv h with
    memWf := Memory.wf_scramble _ _ _ _ h.memWf
    memBelow := abandon_mem_below s h.memBelow
    heldInReset := fun _ => State.resetRegs_resetRegs s.abandon }

theorem driveReset_inv {s : State} (h : s.Inv) (level : Bool) : (s.driveReset level).Inv := by
  rcases driveReset_cases s level with ⟨-, -, hd⟩ | ⟨-, -, hd⟩ | ⟨-, hd⟩ <;> rw [hd]
  · exact resetRegs_level_inv (abandon_resetRegs_inv h) true
  · exact resetRegs_level_inv (resetRegs_inv h) false
  · exact h

/-! ### Host accesses (R60) -/

theorem popTurn_inv {s : State} (h : s.Inv) : s.popTurn.Inv :=
  { h with heldInReset := fun hr => congrArg State.popTurn (h.heldInReset hr) }

theorem answer_inv {s : State} (h : s.Inv) (w : Word) : (s.answer w).Inv :=
  { h with heldInReset := fun hr => congrArg (State.answer · w) (h.heldInReset hr) }

theorem answerFree_inv {s : State} (h : s.Inv) : s.answerFree.Inv :=
  { h with heldInReset := fun hr => congrArg State.answerFree (h.heldInReset hr) }

theorem hostRead_inv {s : State} (h : s.Inv) (a : BusAddr) : (s.hostRead a).Inv := by
  rcases hostRead_cases s a with ⟨-, ha⟩ | ⟨-, -, -, ha⟩ | ⟨-, -, ha⟩ <;> rw [ha]
  · exact answer_inv h 0
  · exact answerFree_inv h
  · exact answer_inv h _

/-- With reset released the invariant asks nothing of the values held in reset. -/
theorem heldInReset_of_released {s : State} (hr : s.inReset = false) (t : State) :
    s.inReset = true → t.resetRegs = t := fun hr' => by simp [hr] at hr'

theorem dropWrite_inv {s : State} (h : s.Inv) (hr : s.inReset = false) : s.dropWrite.Inv :=
  { h with heldInReset := heldInReset_of_released hr _ }

theorem accept_inv {s : State} (h : s.Inv) (hr : s.inReset = false) (w : Word) : (s.accept w).Inv :=
  { h with
    noEncOverflow := by simp
    errHasCode := by simp
    busyClear := by simp
    heldInReset := heldInReset_of_released hr _ }

/-- Clearing flags breaks no rule about set ones (R29). -/
theorem clearStatus_inv {s : State} (h : s.Inv) (hr : s.inReset = false) (v : Word) : (s.clearStatus v).Inv :=
  { h with
    errHasCode := fun herr => by
      rw [State.clearStatus_err, Bool.and_eq_true] at herr
      exact h.errHasCode herr.1
    busyClear := fun hp => by
      obtain ⟨hdone, herr, hcode⟩ := h.busyClear hp
      exact ⟨by simp [hdone], by simp [herr], hcode⟩
    heldInReset := heldInReset_of_released hr _ }

theorem setBig_inv {s : State} (h : s.Inv) (hr : s.inReset = false) (r : BigReg) (v : Nat)
    (hv : v < 2 ^ s.cfg.keyBits) (hw : hostWritable r = true) : (s.setBig r v).Inv := by
  have hbig : ∀ q, (s.setBig r v).big q < 2 ^ s.cfg.keyBits := fun q => by
    rw [State.big_setBig]
    split
    · exact hv
    · exact h.bigInRange q
  cases r
  case A | E | M => exact { h with bigInRange := hbig, heldInReset := heldInReset_of_released hr _ }
  all_goals cases hw

/-- A mapped buffer word lies in the buffer whole, because the buffer's size is a multiple of four (R10, R66). -/
theorem bufferWord_in_buffer (p : Params) (h : p.wf = true) (k : Nat) (hk : 4 * k < p.bufBytes) :
    4 * k + 4 ≤ p.bufBytes := by
  have hbounds := bounds_of_wf p h
  omega

theorem writeLocation_inv {s : State} (h : s.Inv) (hr : s.inReset = false) (v : Word) (l : Location) :
    (s.writeLocation v l).Inv := by
  cases l with
  | cmd => exact accept_inv h hr v
  | status => exact clearStatus_inv h hr v
  | ctrl | src | dst | len => exact { h with heldInReset := heldInReset_of_released hr _ }
  | big r j =>
    rcases writeLocation_big_outcomes s v r j with hs | ⟨hw, -, hs⟩ <;> rw [hs]
    · exact h
    · exact setBig_inv h hr r _ (putBigWord_lt _ _ j v (h.bigInRange r)) hw
  | buf k =>
    rcases writeLocation_buf_outcomes s v k with hs | ⟨hk, hs⟩ <;> rw [hs]
    · exact h
    · exact { h with
        memWf := Memory.wf_writeBytes _ _ _ h.memWf
        memBelow := Memory.below_writeBytes _ _ _ _ (bufferWord_in_buffer s.cfg h.cfgLegal k hk) h.memBelow
        heldInReset := heldInReset_of_released hr _ }
  | id | keybits | bufbytes | outlen | failcnt | xsign | reserved => exact h

theorem hostWrite_inv {s : State} (h : s.Inv) (a : BusAddr) (v : Word) : (s.hostWrite a v).Inv := by
  rcases hostWrite_cases s a v with ⟨-, hw⟩ | ⟨hr, -, -, hw⟩ | ⟨hr, -, hw⟩ <;> rw [hw]
  · exact h
  · exact dropWrite_inv h hr
  · exact writeLocation_inv h hr v _

/-! ### Commands (R97) -/

/-- A legal build's registers hold more than the value 1 (R7). -/
theorem one_lt_two_pow_keyBits (p : Params) (h : p.wf = true) : 1 < 2 ^ p.keyBits := by
  have hbounds := bounds_of_wf p h
  exact Nat.one_lt_two_pow (by omega)

theorem gcd_lt_of_lt (a m bound : Nat) (ha : a < bound) (hm : m < bound) : Nat.gcd a m < bound := by
  rcases Nat.eq_zero_or_pos a with rfl | hpos
  · rwa [Nat.gcd_zero_left]
  · exact (Nat.gcd_le_left m hpos).trans_lt ha

/-- `R` takes any value in range. -/
theorem set_regR_inv {s : State} (h : s.Inv) (hr : s.inReset = false) (v : Nat) (hv : v < 2 ^ s.cfg.keyBits) :
    ({ s with regR := v } : State).Inv :=
  { h with
    bigInRange := fun r => by
      have hold := h.bigInRange r
      cases r
      case R => exact hv
      all_goals exact hold
    heldInReset := heldInReset_of_released hr _ }

/-- The triple of XGCD fits the registers, and no zero has a sign (R124, R127). -/
theorem putBezout_inv {s : State} (h : s.Inv) (hr : s.inReset = false) :
    (s.putBezout (extEuclid s.regA s.regM)).Inv := by
  have hA := h.bigInRange .A
  have hM := h.bigInRange .M
  obtain ⟨hx, hy⟩ := extEuclid_natAbs_lt s.regA s.regM _ (one_lt_two_pow_keyBits s.cfg h.cfgLegal) hA hM
  have hg : (extEuclid s.regA s.regM).g < 2 ^ s.cfg.keyBits := by
    rw [extEuclid_g]
    exact gcd_lt_of_lt _ _ _ hA hM
  exact { h with
    bigInRange := fun r => by
      have hold := h.bigInRange r
      cases r
      case R => exact hg
      case X => exact hx
      case Y => exact hy
      all_goals exact hold
    noNegativeZero := by
      constructor
      all_goals
        intro hneg h0
        simp [signBit_of_natAbs_eq_zero _ h0] at hneg
    heldInReset := heldInReset_of_released hr _ }

/-- A buffer kept canonical and inside its bounds, with the two counts that a block command leaves. -/
theorem set_block_results_inv {s : State} (h : s.Inv) (hr : s.inReset = false) (m : Memory) (n : Nat)
    (hwf : m.wf = true) (hbelow : m.below s.cfg.bufBytes = true) (hn : n ≤ s.cfg.bufBytes) :
    ({ s with mem := m, outlen := BitVec.ofNat 32 n, failcnt := 0 } : State).Inv :=
  { h with
    memWf := hwf
    memBelow := hbelow
    outlenInBuf := by
      rw [toNat_ofNat_of_le_bufBytes s.cfg h.cfgLegal n hn]
      exact hn
    failcntZero := rfl
    heldInReset := heldInReset_of_released hr _ }

theorem runCommand_inv {s u : State} (h : s.Inv) (hr : s.inReset = false) (i : Instr) (hrun : runCommand i s = .ok u) :
    u.Inv := by
  have hA := h.bigInRange .A
  have hM := h.bigInRange .M
  cases i with
  | gcd =>
    cases hrun
    rw [gcd_eq]
    exact set_regR_inv h hr _ (gcd_lt_of_lt _ _ _ hA hM)
  | xgcd =>
    cases hrun
    exact putBezout_inv h hr
  | modinv =>
    rcases runModinv_outcomes s with hc | hc | ⟨v, hv, hok⟩
    · cases hc.symm.trans hrun
    · cases hc.symm.trans hrun
    · cases hok.symm.trans hrun
      exact set_regR_inv h hr v (hv.trans hM)
  | modexp =>
    rcases runModexp_outcomes s with hc | ⟨hm, hok⟩
    · cases hc.symm.trans hrun
    · cases hok.symm.trans hrun
      exact set_regR_inv h hr _ (modExp_lt _ _ _ _ (Nat.pos_of_ne_zero hm) hM)
  | encrypt =>
    rcases runEncrypt_cases s with ⟨c, hc, -⟩ | ⟨m, hok, -, -, hdst, -, hloop⟩
    · cases hc.symm.trans hrun
    · cases hok.symm.trans hrun
      refine set_block_results_inv h hr m s.encLen (encryptBlocks_wf _ _ _ _ _ _ _ _ _ hloop h.memWf)
        (encryptBlocks_below _ _ _ _ _ _ _ _ _ _ hloop ?_ h.memBelow) (by omega)
      rwa [Nat.zero_add, length_blocks, ← State.encLen_eq]
  | decrypt =>
    rcases runDecrypt_cases s with ⟨c, hc, -⟩ | ⟨acc, hok, -, hm, -, hdst, -, hacc⟩
    · cases hc.symm.trans hrun
    · cases hok.symm.trans hrun
      obtain rfl : acc = s.decrypted := hacc
      obtain ⟨hpos, -, hwf, hbelow⟩ := decrypted_frame s
      rw [decrypted_fails s h.cfgLegal hm hM]
      exact set_block_results_inv h hr _ _ (hwf h.memWf) (hbelow hdst h.memBelow) (by omega)

/-- No run raises `ENC_OVERFLOW`: ENCRYPT with its checks passed succeeds (R168). -/
theorem runCommand_error_ne_encOverflow {s : State} (h : s.Inv) (i : Instr) (c : ErrCode)
    (hrun : runCommand i s = .error c) : c ≠ .encOverflow := by
  cases i with
  | gcd => cases hrun
  | xgcd => cases hrun
  | modinv =>
    rcases runModinv_outcomes s with hc | hc | ⟨v, -, hok⟩
    · cases hc.symm.trans hrun
      simp
    · cases hc.symm.trans hrun
      simp
    · cases hok.symm.trans hrun
  | modexp =>
    rcases runModexp_outcomes s with hc | ⟨-, hok⟩
    · cases hc.symm.trans hrun
      simp
    · cases hok.symm.trans hrun
  | encrypt =>
    rintro rfl
    obtain ⟨hModZero, hRange, hOverlap⟩ := runEncrypt_errors s
    by_cases hm : s.regM = 0
    · cases (hModZero hm).symm.trans hrun
    by_cases hrange : s.cfg.bufBytes < s.src.toNat + s.len.toNat ∨ s.cfg.bufBytes < s.dst.toNat + s.encLen
    · cases (hRange hm hrange).symm.trans hrun
    rw [not_or, not_lt, not_lt] at hrange
    obtain ⟨hsrc, hdst⟩ := hrange
    by_cases hshare : shareByte s.src.toNat s.len.toNat s.dst.toNat s.encLen
    · cases (hOverlap hm hsrc hdst hshare).symm.trans hrun
    · obtain ⟨m, -, hok⟩ := runEncrypt_ok_of_checks s h.cfgLegal hm (h.bigInRange .M) hsrc hdst hshare
      cases hok.symm.trans hrun
  | decrypt =>
    rcases runDecrypt_cases s with ⟨c', hc, hcode⟩ | ⟨acc, hok, -⟩
    · cases hc.symm.trans hrun
      rcases hcode with rfl | rfl | rfl | rfl <;> simp
    · cases hok.symm.trans hrun

theorem raiseError_inv {s : State} (h : s.Inv) (hr : s.inReset = false) (c : ErrCode) (hc : c ≠ .noError)
    (hovf : c ≠ .encOverflow) : (s.raiseError c).Inv :=
  { h with
    noEncOverflow := hovf
    errHasCode := fun _ => hc
    busyClear := fun hp => by simp at hp
    heldInReset := heldInReset_of_released hr _ }

theorem finish_inv {s : State} (h : s.Inv) (hr : s.inReset = false) : s.finish.Inv :=
  { h with
    busyClear := fun hp => by simp at hp
    heldInReset := heldInReset_of_released hr _ }

theorem exec_inv {s t : State} (h : s.Inv) (hr : s.inReset = false) (i : Instr) (hexec : exec i s = .next t) :
    t.Inv := by
  rcases exec_cases i s t hexec with ⟨c, hrun, rfl⟩ | ⟨u, hrun, rfl⟩
  · exact raiseError_inv h hr c (runCommand_error_ne_noError i s c hrun) (runCommand_error_ne_encOverflow h i c hrun)
  · have hru : u.inReset = false := by
      rw [runCommand_frame i s u hrun]
      exact hr
    exact finish_inv (runCommand_inv h hr i hrun) hru

/-- Settles O27, by the cases of a step. -/
theorem everyStepKeepsTheInvariant : Obligations.EveryStepKeepsTheInvariant := by
  intro s t h hstep
  have hpop := popTurn_inv h
  rcases step_cases s t hstep with ⟨-, -, rfl⟩ | ⟨-, hp, i, -, hexec⟩ | ⟨-, hp, -, rfl⟩ | ⟨a, -, -, rfl⟩ |
    ⟨a, v, -, -, rfl⟩ | ⟨b, -, -, rfl⟩
  · exact hpop
  · exact exec_inv hpop (hpop.inReset_of_busy hp) i hexec
  · exact raiseError_inv hpop (hpop.inReset_of_busy hp) .illegalCmd (by simp) (by simp)
  · exact hostRead_inv hpop a
  · exact hostWrite_inv hpop a v
  · exact driveReset_inv hpop b

end Sys2Proof.Machine
end

section
/-! SUPPORT. The proofs about progress: every step goes on, the engine's turn runs the command in flight
(30_encoding.md R97, R98), and no host access while it is in flight changes its outcome (R96). -/

namespace Sys2Proof.Machine

/-! ### The engine's turn (R97, R233) -/

theorem step_nil (s : State) (h : s.schedule = []) : step s = engineTurn s := by simp [step, nextTurn, h]

theorem engineTurn_of_idle (s : State) (hp : s.phase = .idle) : engineTurn s = .next s := by
  unfold engineTurn
  rw [hp]

theorem completeCommand_of_decode (s : State) (i : Instr) (h : decode s.cmd = .ok i) :
    completeCommand s = exec i s := by
  unfold completeCommand
  rw [h]

/-- Complete ends the command, whatever the word in CMD, and touches neither reset nor the schedule. -/
theorem completeCommand_ends (s : State) :
    ∃ t, completeCommand s = .next t ∧ t.phase = .idle ∧ t.done = true ∧ t.inReset = s.inReset ∧
      t.schedule = s.schedule := by
  rcases decode_cases s.cmd with ⟨i, -, hi⟩ | ⟨hout, -⟩
  · rw [completeCommand_of_decode s i hi]
    rcases exec_ends i s with ⟨c, -, hexec⟩ | ⟨u, hrun, hexec⟩
    · exact ⟨_, hexec, rfl, rfl, rfl, rfl⟩
    · refine ⟨_, hexec, rfl, rfl, ?_⟩
      rw [runCommand_frame i s u hrun]
      exact ⟨rfl, rfl⟩
  · exact ⟨_, completeCommand_of_outsideOpcodeMap s hout, rfl, rfl, rfl, rfl⟩

theorem engineTurn_next (s : State) : ∃ t, engineTurn s = .next t := by
  cases hp : s.phase with
  | idle => exact ⟨s, engineTurn_of_idle s hp⟩
  | busy =>
    obtain ⟨t, ht, -⟩ := completeCommand_ends s
    exact ⟨t, (engineTurn_of_busy s hp).trans ht⟩

theorem step_next (s : State) : ∃ t, step s = .next t := by
  cases hs : s.schedule with
  | nil =>
    rw [step_nil s hs]
    exact engineTurn_next s
  | cons x rest =>
    cases x with
    | read a => exact ⟨_, step_read s a rest hs⟩
    | write a v => exact ⟨_, step_write s a v rest hs⟩
    | reset b => exact ⟨_, step_reset s b rest hs⟩
    | engine =>
      rw [step_engine s rest hs]
      exact engineTurn_next _

/-- Settles O30. -/
theorem everyStepGoesOn : Obligations.EveryStepGoesOn := ⟨step_next, fun i s => ⟨_, exec_eq i s⟩⟩

/-- Settles O4: the engine's turn is Complete while busy and nothing while idle. -/
theorem stepRunsDecodedCommand : Obligations.StepRunsDecodedCommand := by
  refine ⟨fun s i hp hi => ⟨fun rest hs => ?_, fun hs => ?_⟩, fun s hp => ⟨fun rest hs => ?_, fun hs => ?_⟩⟩
  · rw [step_engine s rest hs, engineTurn_of_busy { s with schedule := rest } hp,
      completeCommand_of_decode { s with schedule := rest } i hi]
  · rw [step_nil s hs, engineTurn_of_busy s hp, completeCommand_of_decode s i hi]
  · rw [step_engine s rest hs, engineTurn_of_idle { s with schedule := rest } hp]
  · rw [step_nil s hs, engineTurn_of_idle s hp]

/-- A step on a turn of the engine while busy is Complete (R97). -/
theorem step_engine_of_busy (s : State) (rest : List Turn) (hs : s.schedule = .engine :: rest) (hp : s.phase = .busy) :
    step s = completeCommand { s with schedule := rest } := by
  rw [step_engine s rest hs, engineTurn_of_busy { s with schedule := rest } hp]

/-- Settles O54: completion sets DONE after the write has cleared it, or the write clears it after completion. -/
theorem bothOrdersOfARace : Obligations.BothOrdersOfARace := by
  intro s addr v rest hp hr ha hv
  constructor
  · have hwrite := step_write { s with schedule := .write addr v :: .engine :: rest } addr v _ rfl
    rw [hostWrite_status _ addr v (by exact hr) ha] at hwrite
    obtain ⟨t, ht, hidle, hdone, -⟩ := completeCommand_ends (({ s with schedule := rest } : State).clearStatus v)
    refine ⟨t, ?_, hidle, hdone⟩
    rw [core_run_succ 1 _ _ hwrite, core_run_succ 0 _ t ((step_engine_of_busy _ rest rfl (by exact hp)).trans ht)]
    rfl
  · obtain ⟨t, ht, hidle, -, hreset, hsched⟩ := completeCommand_ends { s with schedule := .write addr v :: rest }
    have hcomplete := (step_engine_of_busy { s with schedule := .engine :: .write addr v :: rest } _ rfl hp).trans ht
    have hwrite := step_write t addr v rest hsched
    rw [hostWrite_status { t with schedule := rest } addr v (hreset.trans hr) ha] at hwrite
    refine ⟨({ t with schedule := rest } : State).clearStatus v, ?_, hidle, by simp [hv]⟩
    rw [core_run_succ 1 _ _ hcomplete, core_run_succ 0 _ _ hwrite]
    rfl

/-! ### Host accesses while busy (R96) -/

/-- A host write while busy does nothing, is dropped, or reaches CTRL or STATUS (R236). -/
theorem hostWrite_of_busy_cases (s : State) (a : BusAddr) (v : Word) (hp : s.phase = .busy) :
    s.hostWrite a v = s ∨ s.hostWrite a v = s.dropWrite ∨ s.hostWrite a v = s.setCtrl v ∨
      s.hostWrite a v = s.clearStatus v := by
  rcases hostWrite_cases s a v with ⟨-, h⟩ | ⟨-, -, -, h⟩ | ⟨-, hidle | hd, h⟩
  · exact .inl h
  · exact .inr (.inl h)
  · simp [hp] at hidle
  · by_cases hctrl : locate a = .ctrl
    · exact .inr (.inr (.inl (by rw [h, hctrl]; rfl)))
    by_cases hstatus : locate a = .status
    · exact .inr (.inr (.inr (by rw [h, hstatus]; rfl)))
    exact .inl (h.trans (writeLocation_of_not_dropped s v _ hd hctrl hstatus))

/-- A step on a host access while busy: the engine stays busy, and with DONE and ERR clear, as acceptance leaves them,
nothing that a command reads or writes changes. -/
theorem step_access_of_busy (s : State) (x : Turn) (rest : List Turn) (hs : s.schedule = x :: rest)
    (hx : x.isAccess = true) (hp : s.phase = .busy) :
    ∃ t, step s = .next t ∧ t.phase = .busy ∧ t.schedule = rest ∧ t.cfg = s.cfg ∧
      (s.done = false → s.err = false → t.results = s.results) := by
  cases x with
  | read a =>
    refine ⟨_, step_read s a rest hs, ?_⟩
    rw [hostRead_frame]
    exact ⟨hp, rfl, rfl, fun _ _ => rfl⟩
  | write a v =>
    refine ⟨_, step_write s a v rest hs, ?_⟩
    rcases hostWrite_of_busy_cases { s with schedule := rest } a v hp with h | h | h | h <;> rw [h]
    · exact ⟨hp, rfl, rfl, fun _ _ => rfl⟩
    · exact ⟨hp, rfl, rfl, fun _ _ => rfl⟩
    · exact ⟨hp, rfl, rfl, fun _ _ => rfl⟩
    · exact ⟨hp, rfl, rfl, fun hdone herr => by simp [State.results, hdone, herr]⟩
  | reset b => cases hx
  | engine => cases hx

/-- Settles O38, by induction on the schedule: an engine's turn completes the command, and so does the end of the
schedule; a host access leaves the engine busy. -/
theorem acceptedCommandCompletes : Obligations.AcceptedCommandCompletes := by
  intro s hp hturns
  generalize hs : s.schedule = turns at hturns
  induction turns generalizing s with
  | nil =>
    obtain ⟨t, ht, hidle, hdone, -⟩ := completeCommand_ends s
    have hstep : step s = .next t := by rw [step_nil s hs, engineTurn_of_busy s hp, ht]
    exact ⟨1, t, le_rfl, core_run_succ 0 s t hstep, hidle, hdone⟩
  | cons x rest ih =>
    rcases hturns x List.mem_cons_self with rfl | hx
    · obtain ⟨t, ht, hidle, hdone, -⟩ := completeCommand_ends { s with schedule := rest }
      have hstep := (step_engine_of_busy s rest hs hp).trans ht
      exact ⟨1, t, by simp, core_run_succ 0 s t hstep, hidle, hdone⟩
    · obtain ⟨t, hstep, hbusy, hrest, -⟩ := step_access_of_busy s x rest hs hx hp
      obtain ⟨k, u, hk, hrun, hidle, hdone⟩ := ih t hbusy hrest fun y hy => hturns y (List.mem_cons_of_mem x hy)
      exact ⟨k + 1, u, by simpa using hk, (core_run_succ k s t hstep).trans hrun, hidle, hdone⟩

/-! ### The outcome of the command in flight -/

/-- `s` with the fields that no command reads or writes taken from `t`. -/
def State.withUnread (s t : State) : State :=
  { s with
    ie := t.ie, werr := t.werr, inReset := t.inReset, schedule := t.schedule, rdata := t.rdata, draws := t.draws }

/-- The results and the build are all that a command reads or writes. -/
theorem eq_withUnread (s t : State) (h : t.results = s.results) (hcfg : t.cfg = s.cfg) : t = s.withUnread t := by
  cases s
  cases t
  simp only [State.results, Results.mk.injEq] at h hcfg
  simp only [State.withUnread, h, hcfg]

/-- `Functor.map_map` for `Except.map`, as the runs spell it. -/
theorem except_map_map {ε α β γ : Type} (f : α → β) (g : β → γ) (r : Except ε α) :
    (r.map f).map g = r.map (g ∘ f) := Functor.map_map f g r

theorem runCommand_withUnread (i : Instr) (s t : State) :
    runCommand i (s.withUnread t) = (runCommand i s).map (·.withUnread t) := by
  cases i with
  | gcd => rfl
  | xgcd => rfl
  | modinv =>
    simp only [runCommand, runModinv, except_map_map]
    rfl
  | modexp =>
    simp only [runCommand, runModexp, apply_ite (Except.map (State.withUnread · t))]
    rfl
  | encrypt =>
    simp only [runCommand, runEncrypt, apply_ite (Except.map (State.withUnread · t)), except_map_map]
    rfl
  | decrypt =>
    simp only [runCommand, runDecrypt, apply_ite (Except.map (State.withUnread · t))]
    rfl

theorem complete_withUnread (s t : State) (r : Except ErrCode State) :
    ((s.withUnread t).complete (r.map (·.withUnread t))).results = (s.complete r).results := by cases r <;> rfl

/-- States that agree on the results and the build complete their command alike. -/
theorem completeCommand_results_congr (s t : State) (h : t.results = s.results) (hcfg : t.cfg = s.cfg) :
    ∃ u v, completeCommand s = .next u ∧ completeCommand t = .next v ∧ v.results = u.results := by
  rw [eq_withUnread s t h hcfg]
  rcases decode_cases s.cmd with ⟨i, -, hi⟩ | ⟨hout, -⟩
  · rw [completeCommand_of_decode s i hi, completeCommand_of_decode (s.withUnread t) i hi, exec_eq, exec_eq,
      runCommand_withUnread]
    exact ⟨_, _, rfl, rfl, complete_withUnread s t _⟩
  · exact ⟨_, _, completeCommand_of_outsideOpcodeMap s hout, completeCommand_of_outsideOpcodeMap (s.withUnread t) hout,
      rfl⟩

/-- Settles O37: the access changes nothing that the command reads or writes. -/
theorem accessKeepsTheOutcome : Obligations.AccessKeepsTheOutcome := by
  intro s x rest hinv hp hs hx
  obtain ⟨hdone, herr, -⟩ := hinv.busyClear hp
  obtain ⟨t, hstep, hbusy, hrest, hcfg, hresults⟩ := step_access_of_busy s x rest hs hx hp
  obtain ⟨u, v, hu, hv, huv⟩ := completeCommand_results_congr s t (hresults hdone herr) hcfg
  exact ⟨t, u, v, hstep, everyStepKeepsTheInvariant s t hinv hstep, hbusy, hrest, hu, hv, huv⟩

/-- Settles O36, by induction on the accesses: after each one the rest leads where it would have led before it. -/
theorem operandSnapshot : Obligations.OperandSnapshot := by
  intro s ts rest hinv hp hs hts
  induction ts generalizing s with
  | nil =>
    obtain ⟨t, hstep⟩ := step_next s
    have hself : ({ s with schedule := .engine :: rest } : State) = s := by rw [← List.nil_append (_ :: rest), ← hs]
    exact ⟨t, t, core_run_succ 0 s t hstep, by rw [hself, hstep], rfl⟩
  | cons x ts ih =>
    obtain ⟨hdone, herr, -⟩ := hinv.busyClear hp
    obtain ⟨s', hstep, hbusy, hrest, hcfg, hresults⟩ :=
      step_access_of_busy s x _ hs (hts x List.mem_cons_self) hp
    obtain ⟨t, u', hrun, hu', htu'⟩ := ih s' (everyStepKeepsTheInvariant s s' hinv hstep) hbusy hrest
      fun y hy => hts y (List.mem_cons_of_mem x hy)
    obtain ⟨u, v, hu, hv, huv⟩ := completeCommand_results_congr { s with schedule := rest }
      { s' with schedule := rest } (hresults hdone herr) hcfg
    have hvu' : v = u' := by
      rw [step_engine_of_busy _ rest rfl (by exact hbusy), hv] at hu'
      cases hu'
      rfl
    refine ⟨t, u, (core_run_succ _ s s' hstep).trans hrun, ?_, by rw [htu', ← hvu', huv]⟩
    rw [step_engine_of_busy _ rest rfl (by exact hp), hu]

end Sys2Proof.Machine
end

section
/-! SUPPORT. The proofs about who may change each part of the state: the operands, the results, the buffer and WERR
(10_state.md R23 to R26, R41; 60_exceptions.md R206; 70_reset_and_hazards.md R230, R231, R236). -/

namespace Sys2Proof.Machine

@[simp] theorem State.big_popTurn (s : State) (r : BigReg) : s.popTurn.big r = s.big r := by cases r <;> rfl

/-! ### Where a location stands in the map (R63) -/

theorem controlLocation_not_window (n : Nat) :
    (∀ r j, controlLocation n ≠ .big r j) ∧ ∀ k, controlLocation n ≠ .buf k := by
  unfold controlLocation
  split <;> simp

theorem wordOffset_of_locate_big (a : BusAddr) (r : BigReg) (j : Nat) (h : locate a = .big r j) :
    wordOffset a = bigOffset r j := by
  rcases locate_cases a with ⟨-, hl⟩ | ⟨-, -, q, i, -, hoff, hl⟩ | ⟨-, -, hl⟩ | ⟨-, k, -, hl⟩
  · exact absurd (hl.symm.trans h) ((controlLocation_not_window _).1 r j)
  · cases hl.symm.trans h
    exact hoff
  · cases hl.symm.trans h
  · cases hl.symm.trans h

theorem wordOffset_of_locate_buffer (a : BusAddr) (k : Nat) (h : locate a = .buf k) :
    wordOffset a = 0x10000 + 4 * k := by
  rcases locate_cases a with ⟨-, hl⟩ | ⟨-, -, q, i, -, -, hl⟩ | ⟨-, -, hl⟩ | ⟨-, k', hoff, hl⟩
  · exact absurd (hl.symm.trans h) ((controlLocation_not_window _).2 k)
  · cases hl.symm.trans h
  · cases hl.symm.trans h
  · cases hl.symm.trans h
    exact hoff

/-! ### The operands (R23) -/

/-- A command writes no operand (R23). -/
theorem exec_keeps_operands (i : Instr) (s t : State) (r : BigReg) (hr : r = .A ∨ r = .E ∨ r = .M)
    (h : exec i s = .next t) : t.big r = s.big r := by
  rcases exec_cases i s t h with ⟨c, -, rfl⟩ | ⟨u, hrun, rfl⟩
  · exact State.big_raiseError s c r
  · rw [State.big_finish, runCommand_frame i s u hrun]
    rcases hr with rfl | rfl | rfl <;> rfl

/-- A write changes a big register only at one of its words below `NW` (R64). -/
theorem writeLocation_big_cases (s : State) (v : Word) (l : Location) (r : BigReg) :
    (s.writeLocation v l).big r = s.big r ∨ ∃ j, l = .big r j ∧ j < numWords s.cfg := by
  cases l with
  | big q j =>
    rcases writeLocation_big_outcomes s v q j with hs | ⟨-, hj, hs⟩ <;> rw [hs]
    · exact .inl rfl
    · by_cases hq : r = q
      · exact .inr ⟨j, by rw [hq], hj⟩
      · exact .inl (by rw [State.big_setBig, if_neg hq])
  | buf k =>
    rcases writeLocation_buf_outcomes s v k with hs | ⟨-, hs⟩ <;> rw [hs]
    · exact .inl rfl
    · exact .inl (by cases r <;> rfl)
  | _ => exact .inl (by cases r <;> rfl)

theorem hostWrite_big_cases (s : State) (a : BusAddr) (v : Word) (r : BigReg) :
    (s.hostWrite a v).big r = s.big r ∨
      (s.inReset = false ∧ s.phase = .idle ∧ ∃ j, j < numWords s.cfg ∧ wordOffset a = bigOffset r j) := by
  rcases hostWrite_cases s a v with ⟨-, h⟩ | ⟨-, -, -, h⟩ | ⟨hr, hp, h⟩ <;> rw [h]
  · exact .inl rfl
  · exact .inl (State.big_dropWrite s r)
  · rcases writeLocation_big_cases s v (locate a) r with hkept | ⟨j, hl, hj⟩
    · exact .inl hkept
    · rw [hl] at hp
      exact .inr ⟨hr, hp.resolve_right (by simp [droppedWhileBusy]), j, hj, wordOffset_of_locate_big a r j hl⟩

/-- Settles O31, by the cases of a step. -/
theorem operandsChangeOnlyByHostWrite : Obligations.OperandsChangeOnlyByHostWrite := by
  intro s t r hop h hne
  rcases step_cases s t h with ⟨-, -, rfl⟩ | ⟨-, -, i, -, hexec⟩ | ⟨-, -, -, rfl⟩ | ⟨a, rest, -, rfl⟩ |
    ⟨a, v, rest, hs, rfl⟩ | ⟨b, rest, hs, rfl⟩
  · exact absurd (State.big_popTurn s r) hne
  · exact absurd ((exec_keeps_operands i s.popTurn t r hop hexec).trans (State.big_popTurn s r)) hne
  · exact absurd (by simp) hne
  · exact absurd (by rw [hostRead_frame]; cases r <;> rfl) hne
  · rcases hostWrite_big_cases s.popTurn a v r with hkept | ⟨hr, hp, j, hj, ha⟩
    · exact absurd (hkept.trans (State.big_popTurn s r)) hne
    · exact .inr ⟨hp, j, v, hj, hr, a, rest, hs, ha⟩
  · exact .inl ((resets_or_kept s b rest hs).resolve_right fun hkept => hne (by rw [hkept, State.big_popTurn]))

/-! ### The results (R24, R26) -/

/-- What only commands write, apart from the buffer: `R`, `X`, `Y`, XSIGN, OUTLEN and FAILCNT (R26). -/
def State.resultRegs (s : State) : (Nat × Nat × Nat) × (Bool × Bool) × (Word × Word) :=
  ((s.regR, s.regX, s.regY), (s.xneg, s.yneg), (s.outlen, s.failcnt))

theorem setBig_resultRegs (s : State) (r : BigReg) (v : Nat) (hw : hostWritable r = true) :
    (s.setBig r v).resultRegs = s.resultRegs := by
  cases r
  case A | E | M => rfl
  all_goals cases hw

theorem writeLocation_resultRegs (s : State) (v : Word) (l : Location) :
    (s.writeLocation v l).resultRegs = s.resultRegs := by
  cases l with
  | big r j =>
    rcases writeLocation_big_outcomes s v r j with hs | ⟨hw, -, hs⟩ <;> rw [hs]
    exact setBig_resultRegs s r _ hw
  | buf k =>
    rcases writeLocation_buf_outcomes s v k with hs | ⟨-, hs⟩ <;> rw [hs]
    rfl
  | _ => rfl

theorem hostWrite_resultRegs (s : State) (a : BusAddr) (v : Word) : (s.hostWrite a v).resultRegs = s.resultRegs := by
  rcases hostWrite_cases s a v with ⟨-, h⟩ | ⟨-, -, -, h⟩ | ⟨-, -, h⟩ <;> rw [h]
  · rfl
  · exact writeLocation_resultRegs s v _

/-- Only the completion of a run that succeeds, or a change of reset, changes a result. -/
theorem step_resultRegs_cases (s t : State) (h : step s = .next t) (hreset : ¬ s.resets) :
    t.resultRegs = s.resultRegs ∨ ∃ i u, s.completes i ∧ runCommand i s.popTurn = .ok u ∧ t = u.finish := by
  rcases step_cases s t h with ⟨-, -, rfl⟩ | ⟨hturn, hp, i, hi, hexec⟩ | ⟨-, -, -, rfl⟩ | ⟨a, rest, -, rfl⟩ |
    ⟨a, v, rest, -, rfl⟩ | ⟨b, rest, hs, rfl⟩
  · exact .inl rfl
  · rcases exec_cases i s.popTurn t hexec with ⟨c, -, rfl⟩ | ⟨u, hrun, rfl⟩
    · exact .inl rfl
    · exact .inr ⟨i, u, ⟨hturn, hp, hi⟩, hrun, rfl⟩
  · exact .inl rfl
  · rw [hostRead_frame]
    exact .inl rfl
  · exact .inl (hostWrite_resultRegs s.popTurn a v)
  · rw [(resets_or_kept s b rest hs).resolve_left hreset]
    exact .inl rfl

/-- Settles O32: each command writes the results that R26 gives it. -/
theorem resultsChangeOnlyByCommands : Obligations.ResultsChangeOnlyByCommands := by
  intro s t h hreset
  rcases step_resultRegs_cases s t h hreset with hkept | ⟨i, u, hi, hrun, rfl⟩
  · simp only [State.resultRegs, Prod.mk.injEq] at hkept
    simp [hkept]
  · cases i with
    | gcd | modinv | modexp =>
      obtain ⟨v, rfl⟩ := runCommand_writes_R _ s.popTurn u (by simp) hrun
      simp [hi, State.popTurn]
    | xgcd =>
      cases hrun
      simp [hi, State.popTurn]
    | encrypt | decrypt =>
      obtain ⟨m, n, f, rfl⟩ := runCommand_writes_buffer _ s.popTurn u (by simp) hrun
      simp [hi, State.popTurn]

/-! ### The buffer (R41, R231) -/

/-- A write changes a byte only at the byte's own word (R66). -/
theorem writeLocation_byte_cases (s : State) (v : Word) (l : Location) (a : Nat) :
    (s.writeLocation v l).mem.readByte a = s.mem.readByte a ∨ l = .buf (a / 4) := by
  cases l with
  | buf k =>
    by_cases hk : k = a / 4
    · exact .inr (by rw [hk])
    · left
      rcases writeLocation_buf_outcomes s v k with hs | ⟨-, hs⟩ <;> rw [hs]
      exact Memory.readByte_writeBytes_outside _ _ _ _ (by rw [length_lanes]; omega)
  | big r j =>
    rcases writeLocation_big_outcomes s v r j with hs | ⟨-, -, hs⟩ <;> rw [hs]
    · exact .inl rfl
    · rw [State.setBig_mem]
      exact .inl rfl
  | _ => exact .inl rfl

theorem hostWrite_byte_cases (s : State) (addr : BusAddr) (v : Word) (a : Nat) :
    (s.hostWrite addr v).mem.readByte a = s.mem.readByte a ∨
      (s.inReset = false ∧ s.phase = .idle ∧ wordOffset addr = 0x10000 + 4 * (a / 4)) := by
  rcases hostWrite_cases s addr v with ⟨-, h⟩ | ⟨-, -, -, h⟩ | ⟨hr, hp, h⟩ <;> rw [h]
  · exact .inl rfl
  · exact .inl rfl
  · rcases writeLocation_byte_cases s v (locate addr) a with hkept | hl
    · exact .inl hkept
    · rw [hl] at hp
      exact .inr ⟨hr, hp.resolve_right (by simp [droppedWhileBusy]), wordOffset_of_locate_buffer addr _ hl⟩

/-- The range that reset leaves unspecified is the clipped destination of an ENCRYPT or DECRYPT in flight (R230). -/
theorem mem_abandonedRange_iff (s : State) (a : Nat) :
    (s.abandonedRange.1 ≤ a ∧ a < s.abandonedRange.1 + s.abandonedRange.2) ↔
      s.phase = .busy ∧ s.dst.toNat ≤ a ∧ a < s.cfg.bufBytes ∧
        ((decode s.cmd = .ok .encrypt ∧ a < s.dst.toNat + s.encLen) ∨
          (decode s.cmd = .ok .decrypt ∧ a < s.dst.toNat + s.len.toNat)) := by
  unfold State.abandonedRange
  split
  next hp hd =>
    simp only [hp, hd, Except.ok.injEq, reduceCtorEq, false_and, or_false, true_and]
    omega
  next hp hd =>
    simp only [hp, hd, Except.ok.injEq, reduceCtorEq, false_and, false_or, true_and]
    omega
  next hother henc hdec =>
    simp only [Nat.add_zero]
    constructor
    · omega
    · rintro ⟨hp, -, -, ⟨hd, -⟩ | ⟨hd, -⟩⟩
      · exact absurd hd (henc hp)
      · exact absurd hd (hdec hp)

/-- A change of reset changes a byte only in the abandoned range (R230, R231). -/
theorem driveReset_byte_cases (s : State) (b : Bool) (a : Nat) :
    (s.driveReset b).mem.readByte a = s.mem.readByte a ∨
      (s.abandonedRange.1 ≤ a ∧ a < s.abandonedRange.1 + s.abandonedRange.2) := by
  rcases driveReset_cases s b with ⟨-, -, h⟩ | ⟨-, -, h⟩ | ⟨-, h⟩ <;> rw [h]
  · simp only [State.resetRegs_mem, State.abandon_mem, Memory.readByte_scramble]
    split
    next ha => exact .inr ha
    next => exact .inl rfl
  · exact .inl rfl
  · exact .inl rfl

/-- A command that completes changes a byte only in its destination. -/
theorem exec_byte_cases (i : Instr) (s t : State) (h : exec i s = .next t) (a : Nat) :
    t.mem.readByte a = s.mem.readByte a ∨ (s.dst.toNat ≤ a ∧ a < s.dst.toNat + s.destLen i) := by
  rcases exec_cases i s t h with ⟨c, -, rfl⟩ | ⟨u, hrun, rfl⟩
  · exact .inl rfl
  · by_cases ha : s.dst.toNat ≤ a ∧ a < s.dst.toNat + s.destLen i
    · exact .inr ha
    · exact .inl (runCommand_outside i s u hrun a (by omega))

/-- Settles O33, by the cases of a step. -/
theorem bufferChangesOnlyByItsWriters : Obligations.BufferChangesOnlyByItsWriters := by
  intro s t a h hne
  rcases step_cases s t h with ⟨-, -, rfl⟩ | ⟨hturn, hp, i, hi, hexec⟩ | ⟨-, -, -, rfl⟩ | ⟨addr, rest, -, rfl⟩ |
    ⟨addr, v, rest, hs, rfl⟩ | ⟨b, rest, hs, rfl⟩
  · exact absurd rfl hne
  · obtain ⟨hlo, hhi⟩ := (exec_byte_cases i s.popTurn t hexec a).resolve_left hne
    cases i with
    | encrypt => exact .inr (.inl ⟨⟨hturn, hp, hi⟩, hlo, hhi⟩)
    | decrypt => exact .inr (.inr (.inl ⟨⟨hturn, hp, hi⟩, hlo, hhi⟩))
    | gcd | xgcd | modinv | modexp => exact absurd hlo (Nat.not_le.mpr hhi)
  · exact absurd rfl hne
  · rw [hostRead_frame] at hne
    exact absurd rfl hne
  · obtain ⟨hr, hp, ha⟩ := (hostWrite_byte_cases s.popTurn addr v a).resolve_left hne
    exact .inl ⟨hp, v, hr, addr, rest, hs, ha⟩
  · have hresets : s.resets :=
      (resets_or_kept s b rest hs).resolve_right fun hkept => hne (by rw [hkept]; rfl)
    obtain ⟨hp, hlo, hbuf, hcmd⟩ :=
      (mem_abandonedRange_iff s.popTurn a).mp ((driveReset_byte_cases s.popTurn b a).resolve_left hne)
    exact .inr (.inr (.inr ⟨hresets, hp, hbuf, hlo, hcmd⟩))

/-! ### WERR (R206, R236) -/

theorem writeLocation_keeps_werr (s : State) (v : Word) (l : Location) (hstatus : l ≠ .status) :
    (s.writeLocation v l).werr = s.werr := by
  cases l with
  | status => contradiction
  | big r j =>
    rcases writeLocation_big_outcomes s v r j with hs | ⟨-, -, hs⟩ <;> rw [hs]
    rw [State.setBig_werr]
  | buf k =>
    rcases writeLocation_buf_outcomes s v k with hs | ⟨-, hs⟩ <;> rw [hs]
  | _ => rfl

/-- What a host write does to WERR: nothing, unless it is dropped or goes to STATUS. -/
theorem hostWrite_werr_cases (s : State) (a : BusAddr) (v : Word) :
    (s.hostWrite a v).werr = s.werr ∨
    (s.inReset = false ∧ s.phase = .busy ∧ droppedWhileBusy (locate a) = true ∧ (s.hostWrite a v).werr = true) ∨
    (s.inReset = false ∧ wordOffset a = 0x014 ∧ (s.hostWrite a v).werr = (s.werr && !v.getLsbD 3)) := by
  rcases hostWrite_cases s a v with ⟨-, h⟩ | ⟨hr, hp, hd, h⟩ | ⟨hr, -, h⟩ <;> rw [h]
  · exact .inl rfl
  · exact .inr (.inl ⟨hr, hp, hd, rfl⟩)
  · by_cases hstatus : locate a = .status
    · rw [hstatus]
      exact .inr (.inr ⟨hr, wordOffset_of_locate_control a 5 (by decide) hstatus, rfl⟩)
    · exact .inl (writeLocation_keeps_werr s v _ hstatus)

/-- Of the steps that do not change the level of reset only a host write reaches WERR. -/
theorem step_werr_cases (s t : State) (h : step s = .next t) (hreset : ¬ s.resets) :
    t.werr = s.werr ∨
    (s.phase = .busy ∧ t.werr = true ∧ ∃ a v, droppedWhileBusy (locate a) = true ∧ s.writesTo (wordOffset a) v) ∨
    (∃ v, s.writesTo 0x014 v ∧ t.werr = (s.werr && !v.getLsbD 3)) := by
  rcases step_cases s t h with ⟨-, -, rfl⟩ | ⟨-, -, i, -, hexec⟩ | ⟨-, -, -, rfl⟩ | ⟨a, rest, -, rfl⟩ |
    ⟨a, v, rest, hs, rfl⟩ | ⟨b, rest, hs, rfl⟩
  · exact .inl rfl
  · rcases exec_cases i s.popTurn t hexec with ⟨c, -, rfl⟩ | ⟨u, hrun, rfl⟩
    · exact .inl rfl
    · rw [runCommand_frame i s.popTurn u hrun]
      exact .inl rfl
  · exact .inl rfl
  · rw [hostRead_frame]
    exact .inl rfl
  · rcases hostWrite_werr_cases s.popTurn a v with hkept | ⟨hr, hp, hd, hset⟩ | ⟨hr, ha, hclear⟩
    · exact .inl hkept
    · exact .inr (.inl ⟨hp, hset, a, v, hd, hr, a, rest, hs, rfl⟩)
    · exact .inr (.inr ⟨v, ⟨hr, a, rest, hs, ha⟩, hclear⟩)
  · rw [(resets_or_kept s b rest hs).resolve_left hreset]
    exact .inl rfl

/-- Settles O35: a dropped write only sets WERR, and a write to STATUS only clears it. -/
theorem werrReportsDroppedWrites : Obligations.WerrReportsDroppedWrites := by
  intro s t h hreset
  rcases step_werr_cases s t h hreset with hkept | ⟨hp, hset, a, v, hd, hw⟩ | ⟨v, hw, hclear⟩
  · exact ⟨fun hs ht => by simp [hkept, hs] at ht, fun hs ht => by simp [hkept, hs] at ht⟩
  · exact ⟨fun _ _ => ⟨hp, _, v, hw, (droppedWhileBusy_locate_iff a).mp hd⟩, fun _ ht => by simp [hset] at ht⟩
  · exact ⟨fun hs ht => by simp [hclear, hs] at ht, fun hs ht => ⟨v, hw, by simpa [hclear, hs] using ht⟩⟩

end Sys2Proof.Machine
end

section
/-! SUPPORT. The proofs about the host's bus while idle: what each offset reads, what a write stores or leaves, and what
is read back (20_memory.md R60 to R66, R72; 10_state.md R24, R28 to R39). -/

namespace Sys2Proof.Machine

/-! ### Words as numbers -/

theorem toNat_ofNat_of_lt (n : Nat) (h : n < 2 ^ 32) : (BitVec.ofNat 32 n).toNat = n := by
  rw [BitVec.toNat_ofNat, Nat.mod_eq_of_lt h]

theorem toNat_bigWord (v j : Nat) : (bigWord v j).toNat = v / 2 ^ (32 * j) % 2 ^ 32 := by
  rw [bigWord, bits, show 32 * j + 31 - 32 * j + 1 = 32 by omega, BitVec.toNat_ofNat, Nat.mod_mod]

theorem toNat_bufWord (m : Memory) (k : Nat) :
    (bufWord m k).toNat = (m.readByte (4 * k + 3)).toNat * 2 ^ 24 + (m.readByte (4 * k + 2)).toNat * 2 ^ 16 +
      (m.readByte (4 * k + 1)).toNat * 2 ^ 8 + (m.readByte (4 * k)).toNat := by
  have h3 := (m.readByte (4 * k + 3)).isLt
  have h2 := (m.readByte (4 * k + 2)).isLt
  have h1 := (m.readByte (4 * k + 1)).isLt
  have h0 := (m.readByte (4 * k)).isLt
  exact toNat_ofNat_of_lt _ (by omega)

theorem toNat_ctrlWord (s : State) : s.ctrlWord.toNat = s.ie.toNat := by
  unfold State.ctrlWord
  cases s.ie <;> rfl

theorem toNat_xsignWord (s : State) : s.xsignWord.toNat = s.xneg.toNat + 2 * s.yneg.toNat := by
  unfold State.xsignWord
  cases s.xneg <;> cases s.yneg <;> rfl

/-- Lane `j` is the data's digit of weight `256^j` (R66). -/
theorem toNat_lane (v : Word) (j : Nat) : (lane v j).toNat = v.toNat / 256 ^ j % 256 := by
  rw [lane, bits, show 8 * j + 7 - 8 * j + 1 = 8 by omega, two_pow_eight_mul, BitVec.toNat_ofNat, Nat.mod_mod]
  rfl

theorem lane_eq (v : Word) (j : Nat) : lane v j = BitVec.ofNat 8 (v.toNat / 256 ^ j) := by
  apply BitVec.eq_of_toNat_eq
  rw [toNat_lane, BitVec.toNat_ofNat]

/-! ### Reads (R63, R72) -/

/-- What a host read shows does not depend on the model's own fields. -/
theorem readLocation_congr (s : State) (turns : List Turn) (d : Word) (l : Location) :
    ({ s with schedule := turns, rdata := d } : State).readLocation l = s.readLocation l := by
  cases l with
  | big r j => cases r <;> rfl
  | _ => rfl

/-- A read made while idle answers the current value, 0 in reset, and draws nothing (R72, R232). -/
theorem hostRead_of_idle (s : State) (a : BusAddr) (hp : s.phase = .idle) :
    s.hostRead a = s.answer (if s.inReset then 0 else s.readLocation (locate a)) := by
  rcases hostRead_cases s a with ⟨hr, h⟩ | ⟨-, hp', -⟩ | ⟨hr, -, h⟩
  · rw [h, hr]
    rfl
  · simp [hp] at hp'
  · rw [h, hr]
    rfl

/-- Outside reset, a step on a read made while idle answers the current value (R60). -/
theorem step_read_of_idle (s : State) (a : BusAddr) (rest : List Turn) (hs : s.schedule = .read a :: rest)
    (hr : s.inReset = false) (hp : s.phase = .idle) :
    step s = .next { s with schedule := rest, rdata := s.readLocation (locate a) } := by
  rw [step_read s a rest hs, hostRead_of_idle { s with schedule := rest } a hp, if_neg (by simp [hr]),
    readLocation_congr s rest s.rdata]
  rfl

/-- Settles O42: a read while idle is the same function of what it leaves unchanged. -/
theorem readsHaveNoSideEffect : Obligations.ReadsHaveNoSideEffect := by
  intro s addr rest
  constructor
  · intro hs
    exact ⟨_, step_read s addr rest hs, hostRead_frame { s with schedule := rest } addr⟩
  · intro hs hp
    have hfirst := step_read s addr _ hs
    rw [hostRead_of_idle { s with schedule := .read addr :: rest } addr hp] at hfirst
    refine ⟨_, _, hfirst, step_read _ addr rest rfl, ?_, ?_⟩ <;> rw [hostRead_of_idle _ addr (by exact hp)]
    · exact congrArg (if s.inReset then 0 else ·) (readLocation_congr s rest _ _)
    · rfl

theorem locate_of_lt (a : BusAddr) (h : wordOffset a < 0x01000) : locate a = controlLocation (wordOffset a / 4) := by
  rcases locate_cases a with ⟨-, hl⟩ | ⟨hge, -⟩ | ⟨hge, -⟩ | ⟨hge, -⟩
  · exact hl
  all_goals omega

theorem locate_of_reserved (a : BusAddr) (h : 0x01C00 ≤ wordOffset a) (h' : wordOffset a < 0x10000) :
    locate a = .reserved := by
  have haligned := wordOffset_eq a
  exact locate_reserved a (by omega) (by omega)

theorem toNat_readLocation_big (s : State) (r : BigReg) (j : Nat) :
    (s.readLocation (.big r j)).toNat = if j < numWords s.cfg then s.big r / 2 ^ (32 * j) % 2 ^ 32 else 0 := by
  rw [State.readLocation]
  split
  · exact toNat_bigWord _ _
  · rfl

theorem toNat_readLocation_buf (s : State) (k : Nat) :
    (s.readLocation (.buf k)).toNat = if 4 * k < s.cfg.bufBytes then
      (s.mem.readByte (4 * k + 3)).toNat * 2 ^ 24 + (s.mem.readByte (4 * k + 2)).toNat * 2 ^ 16 +
        (s.mem.readByte (4 * k + 1)).toNat * 2 ^ 8 + (s.mem.readByte (4 * k)).toNat
      else 0 := by
  rw [State.readLocation]
  split
  · exact toNat_bufWord _ _
  · rfl

/-- Settles O41: the answer is the location's value, offset by offset. -/
theorem readMapWhileIdle : Obligations.ReadMapWhileIdle := by
  intro s addr rest hs hr hp hwf
  have hbounds := bounds_of_wf s.cfg hwf
  have hcontrol : ∀ n, n < 12 → wordOffset addr = 4 * n →
      s.readLocation (locate addr) = s.readLocation (controlLocation n) := fun n hn h => by
    rw [locate_of_control addr n hn h]
  refine ⟨s.readLocation (locate addr), step_read_of_idle s addr rest hs hr hp, hcontrol 0 (by decide),
    fun h => ?_, fun h => ?_, fun h => ?_,
    hcontrol 4 (by decide), hcontrol 5 (by decide), hcontrol 6 (by decide), hcontrol 7 (by decide),
    hcontrol 8 (by decide), hcontrol 9 (by decide), hcontrol 10 (by decide), fun h => ?_, fun h h' => ?_,
    fun r j hj h => ?_, fun h h' => ?_, fun k h => ?_⟩
  · rw [hcontrol 1 (by decide) h]
    have hbits : bits s.cfg.keyBits 15 0 = s.cfg.keyBits := by
      rw [bits, pow_zero, Nat.div_one]
      exact Nat.mod_eq_of_lt (by omega)
    exact (toNat_ofNat_of_lt _ (by omega)).trans hbits
  · rw [hcontrol 2 (by decide) h]
    exact toNat_ofNat_of_lt _ (by omega)
  · rw [hcontrol 3 (by decide) h]
    exact toNat_ctrlWord s
  · rw [hcontrol 11 (by decide) h]
    exact toNat_xsignWord s
  · rw [locate_of_lt addr h', controlLocation_reserved _ (by omega)]
    rfl
  · rw [locate_of_big addr r j hj h]
    exact toNat_readLocation_big s r j
  · rw [locate_of_reserved addr h h']
    rfl
  · rw [locate_of_buffer addr k h]
    exact toNat_readLocation_buf s k

/-! ### Writes (R24, R35, R37, R62, R64, R66) -/

/-- Settles O48. -/
theorem controlAndOperandWrites : Obligations.ControlAndOperandWrites := by
  intro s addr v rest hs hr
  have hidle : s.phase = .idle → ∀ n, n < 12 → wordOffset addr = 4 * n →
      step s = .next (({ s with schedule := rest } : State).writeLocation v (controlLocation n)) := by
    intro hp n hn ha
    rw [step_write s addr v rest hs, hostWrite_of_idle { s with schedule := rest } addr v hr hp,
      locate_of_control addr n hn ha]
  refine ⟨fun ha => ?_, fun hp => ⟨hidle hp 6 (by decide), hidle hp 7 (by decide), hidle hp 8 (by decide)⟩⟩
  rw [step_write s addr v rest hs, hostWrite_ctrl { s with schedule := rest } addr v hr ha]
  rfl

theorem readByte_writeBytes_lanes (m : Memory) (a j : Nat) (v : Word) (hj : j < 4) :
    (m.writeBytes a (lanes v)).readByte (a + j) = lane v j := by
  rw [Memory.readByte_writeBytes, if_pos (by omega), Nat.add_sub_cancel_left]
  interval_cases j <;> rfl

/-- Outside reset, a step on an idle write to a buffer word stores its lanes (R66). -/
theorem step_write_buf_of_idle (s : State) (a : BusAddr) (v : Word) (rest : List Turn) (k : Nat)
    (hs : s.schedule = .write a v :: rest) (hr : s.inReset = false) (hp : s.phase = .idle)
    (ha : wordOffset a = 0x10000 + 4 * k) (hk : 4 * k < s.cfg.bufBytes) :
    step s = .next { s with schedule := rest, mem := s.mem.writeBytes (4 * k) (lanes v) } := by
  rw [step_write s a v rest hs, hostWrite_of_idle { s with schedule := rest } a v hr hp, locate_of_buffer a k ha,
    writeLocation_buf { s with schedule := rest } v k hk]

/-- Settles O44. -/
theorem bufferWordWrite : Obligations.BufferWordWrite := by
  intro s addr v rest k hs hr hp ha hk
  refine ⟨_, step_write_buf_of_idle s addr v rest k hs hr hp ha hk, fun j hj => ?_, fun a ha' => ?_⟩
  · rw [readByte_writeBytes_lanes _ _ j v hj, lane_eq]
  · exact Memory.readByte_writeBytes_outside _ _ _ _ (by rwa [length_lanes])

/-- A write that has no effect where it lands, and is not dropped, changes nothing. -/
theorem hostWrite_of_ignored (s : State) (a : BusAddr) (v : Word)
    (hd : s.phase = .idle ∨ droppedWhileBusy (locate a) = false) (h : s.writeLocation v (locate a) = s) :
    s.hostWrite a v = s := by
  rcases hostWrite_cases s a v with ⟨-, hw⟩ | ⟨-, hp, hd', -⟩ | ⟨-, -, hw⟩
  · exact hw
  · simp [hp, hd'] at hd
  · rw [hw, h]

/-- The read-only control registers and the reserved offsets after them ignore a write (R31 to R34, R38, R39, R62). -/
theorem writeLocation_controlLocation_readOnly (s : State) (v : Word) (n : Nat) (h : n < 3 ∨ 9 ≤ n) :
    s.writeLocation v (controlLocation n) = s := by
  by_cases hn : n < 12
  · have hlist : n = 0 ∨ n = 1 ∨ n = 2 ∨ n = 9 ∨ n = 10 ∨ n = 11 := by omega
    rcases hlist with rfl | rfl | rfl | rfl | rfl | rfl <;> rfl
  · rw [controlLocation_reserved n (by omega)]
    rfl

/-- An offset whose write is ignored, idle or busy: the location takes no write and is not withheld. -/
theorem hostWrite_readOnly_control (s : State) (a : BusAddr) (v : Word) (h : wordOffset a < 0x01000)
    (hn : wordOffset a / 4 < 3 ∨ 9 ≤ wordOffset a / 4) : s.hostWrite a v = s := by
  have hl := locate_of_lt a h
  refine hostWrite_of_ignored s a v (.inr ?_) ?_ <;> rw [hl]
  · rw [Bool.eq_false_iff, Ne, droppedWhileBusy_controlLocation]
    omega
  · exact writeLocation_controlLocation_readOnly s v _ hn

theorem hostWrite_resultWindow (s : State) (a : BusAddr) (v : Word) (hp : s.phase = .idle)
    (h : 0x01600 ≤ wordOffset a) (h' : wordOffset a < 0x01C00) : s.hostWrite a v = s := by
  rcases locate_cases a with ⟨hlt, -⟩ | ⟨-, -, r, j, hj, hoff, hl⟩ | ⟨hge, -⟩ | ⟨hge, -⟩
  · omega
  · refine hostWrite_of_ignored s a v (.inl hp) ?_
    rw [hl]
    exact writeLocation_big_ignored s v r j (.inl ((hostWritable_eq_false_iff r j hj).mpr (by omega)))
  · omega
  · omega

/-- Settles O46: each location either takes no write at all, or takes none at that word. -/
theorem ignoredWrites : Obligations.IgnoredWrites := by
  intro s addr v rest hs hr h
  rw [step_write s addr v rest hs]
  congr 1
  have haligned := wordOffset_eq addr
  rcases h with h | h | h | h | h | h | ⟨hge, hlt⟩ | ⟨hge, hlt⟩ | ⟨hp, hge, hlt⟩ | ⟨hp, r, j, hj, hNW, ha⟩ | ⟨hp, hge⟩
  iterate 7 exact hostWrite_readOnly_control _ addr v (by omega) (by omega)
  · have hl := locate_of_reserved addr hge hlt
    exact hostWrite_of_ignored _ addr v (.inr (by rw [hl]; rfl)) (by rw [hl]; rfl)
  · exact hostWrite_resultWindow { s with schedule := rest } addr v hp hge hlt
  · refine hostWrite_of_ignored { s with schedule := rest } addr v (.inl hp) ?_
    rw [locate_of_big addr r j hj ha]
    exact writeLocation_big_ignored _ v r j (.inr hNW)
  · refine hostWrite_of_ignored { s with schedule := rest } addr v (.inl hp) ?_
    rw [locate_of_buffer addr ((wordOffset addr - 0x10000) / 4) (by omega)]
    exact writeLocation_buf_ignored { s with schedule := rest } v _ (by simp only; omega)

/-! ### Reading back (R64, R66) -/

/-- A buffer word reads as it was written. -/
theorem bufWord_writeBytes_lanes (m : Memory) (k : Nat) (v : Word) :
    bufWord (m.writeBytes (4 * k) (lanes v)) k = v := by
  apply BitVec.eq_of_toNat_eq
  have h0 := readByte_writeBytes_lanes m (4 * k) 0 v (by decide)
  have h1 := readByte_writeBytes_lanes m (4 * k) 1 v (by decide)
  have h2 := readByte_writeBytes_lanes m (4 * k) 2 v (by decide)
  have h3 := readByte_writeBytes_lanes m (4 * k) 3 v (by decide)
  have hv := v.isLt
  rw [Nat.add_zero] at h0
  rw [toNat_bufWord, h0, h1, h2, h3, toNat_lane, toNat_lane, toNat_lane, toNat_lane]
  omega

/-- A register's word reads as it was written, but for the bits at or above `W`. -/
theorem toNat_bigWord_putBigWord (w x j : Nat) (v : Word) (hx : x < 2 ^ w) :
    (bigWord (putBigWord w x j v) j).toNat = v.toNat % 2 ^ (w - 32 * j) := by
  rw [toNat_bigWord]
  apply Nat.eq_of_testBit_eq
  intro i
  rw [Nat.testBit_mod_two_pow, Nat.testBit_div_two_pow, Nat.testBit_mod_two_pow, testBit_putBigWord]
  by_cases h32 : i < 32
  · by_cases hw : i < w - 32 * j
    · rw [if_pos (by omega), Nat.add_sub_cancel]
      simp [h32, hw, BitVec.getLsbD]
    · have habove : x.testBit (i + 32 * j) = false :=
        Nat.testBit_lt_two_pow (hx.trans_le (Nat.pow_le_pow_right (by decide) (by omega)))
      rw [if_neg (by omega), habove]
      simp [hw]
  · have habove : v.toNat.testBit i = false :=
      Nat.testBit_lt_two_pow (v.isLt.trans_le (Nat.pow_le_pow_right (by decide) (by omega)))
    simp [h32, habove]

/-- Outside reset, a step on an idle write to a word of `A`, `E` or `M` (R64). -/
theorem step_write_big_of_idle (s : State) (a : BusAddr) (v : Word) (rest : List Turn) (r : BigReg) (j : Nat)
    (hs : s.schedule = .write a v :: rest) (hr : s.inReset = false) (hp : s.phase = .idle) (hwf : s.cfg.wf = true)
    (hop : r = .A ∨ r = .E ∨ r = .M) (hj : j < numWords s.cfg) (ha : wordOffset a = bigOffset r j) :
    step s = .next (({ s with schedule := rest } : State).setBig r (putBigWord s.cfg.keyBits (s.big r) j v)) := by
  obtain ⟨-, hNW, -, -⟩ := numWords_bounds s.cfg hwf
  rw [step_write s a v rest hs, hostWrite_of_idle { s with schedule := rest } a v hr hp,
    locate_of_big a r j (by omega) ha, writeLocation_big { s with schedule := rest } v r j
      (hostWritable_of_operand r hop) hj]
  cases r <;> rfl

/-- A read after a step that leaves the engine idle outside reset answers the location's new value. -/
theorem run_two_then_read (s t : State) (a : BusAddr) (rest : List Turn) (hstep : step s = .next t)
    (hs : t.schedule = .read a :: rest) (hr : t.inReset = false) (hp : t.phase = .idle) :
    ∃ u, Sys2Proof.core.run 2 s = .next u ∧ u.rdata = t.readLocation (locate a) := by
  exact ⟨_, (core_run_succ 1 s t hstep).trans (core_run_succ 0 t _ (step_read_of_idle t a rest hs hr hp)), rfl⟩

/-- Settles O45: the read answers the value that the write left at its own location. -/
theorem writtenWordsReadBack : Obligations.WrittenWordsReadBack := by
  intro s addr v rest hs hr hp hwf
  constructor
  · intro k ha hk
    obtain ⟨u, hrun, hread⟩ := run_two_then_read s _ addr rest
      (step_write_buf_of_idle s addr v _ k hs hr hp ha hk) rfl hr hp
    refine ⟨u, hrun, ?_⟩
    rw [hread, locate_of_buffer addr k ha, State.readLocation, if_pos hk, bufWord_writeBytes_lanes]
  · intro r j hop hj ha hlt
    obtain ⟨-, hNW, -, -⟩ := numWords_bounds s.cfg hwf
    obtain ⟨u, hrun, hread⟩ := run_two_then_read s _ addr rest
      (step_write_big_of_idle s addr v _ r j hs hr hp hwf hop hj ha) (by simp) (by simpa using hr) (by simpa using hp)
    refine ⟨u, hrun, ?_⟩
    rw [hread, locate_of_big addr r j (by omega) ha, toNat_readLocation_big, State.big_setBig_same, ← toNat_bigWord,
      toNat_bigWord_putBigWord _ _ _ _ hlt, if_pos (by simpa using hj)]

end Sys2Proof.Machine
end

section
/-! SUPPORT. The proofs about fixed words: the command words of the opcode map (30_encoding.md R92, R93), the layout of
STATUS, CTRL and XSIGN (10_state.md R28, R31, R35; 60_exceptions.md R201), and the values after reset (R44). -/

namespace Sys2Proof.Machine

/-- Settles O1. -/
theorem encodeDecodeRoundTrip : Obligations.EncodeDecodeRoundTrip := fun i _ => decode_encode i

/-- Settles O3. -/
theorem tableWordsDecode : Obligations.TableWordsDecode :=
  ⟨decode_encode .gcd, decode_encode .xgcd, decode_encode .modinv, decode_encode .modexp, decode_encode .encrypt,
    decode_encode .decrypt, rfl, rfl, rfl, rfl⟩

/-- Settles O29. -/
theorem resetStateHoldsTheSpecsValues : Obligations.ResetStateHoldsTheSpecsValues := by
  refine ⟨fun r => ?_, rfl, rfl, rfl, rfl, rfl, rfl, rfl, rfl, rfl, rfl, rfl⟩
  cases r <;> rfl

/-- The fields of STATUS, by its bits (R28). The word is a finite function of the flags and the code. -/
theorem statusWord_fields (s : State) :
    s.statusWord.getLsbD 0 = s.busy ∧ s.statusWord.getLsbD 1 = s.done ∧ s.statusWord.getLsbD 2 = s.err ∧
    s.statusWord.getLsbD 3 = s.werr ∧ bits s.statusWord.toNat 7 4 = 0 ∧
    bits s.statusWord.toNat 11 8 = errCodeValue s.errCode ∧ bits s.statusWord.toNat 31 12 = 0 := by
  unfold State.statusWord
  generalize s.busy = busy
  generalize s.done = done
  generalize s.err = err
  generalize s.werr = werr
  cases s.errCode <;> revert busy done err werr <;> decide

theorem busy_eq_true_iff (s : State) : s.busy = true ↔ s.phase = .busy := by simp [State.busy]

theorem ctrlWord_fields (s : State) : s.ctrlWord.getLsbD 0 = s.ie ∧ bits s.ctrlWord.toNat 31 1 = 0 := by
  unfold State.ctrlWord
  cases s.ie <;> decide

theorem xsignWord_fields (s : State) :
    s.xsignWord.getLsbD 0 = s.xneg ∧ s.xsignWord.getLsbD 1 = s.yneg ∧ bits s.xsignWord.toNat 31 2 = 0 := by
  refine ⟨?_, ?_, bits_xsignWord s⟩ <;> unfold State.xsignWord <;> cases s.xneg <;> cases s.yneg <;> rfl

/-- Settles O49. -/
theorem statusLayout : Obligations.StatusLayout := by
  intro s
  obtain ⟨hbusy, hdone, herr, hwerr, h7, hcode, h31⟩ := statusWord_fields s
  obtain ⟨hie, hctrl⟩ := ctrlWord_fields s
  obtain ⟨hxneg, hyneg, hxsign⟩ := xsignWord_fields s
  have hnumber : ∀ c, s.errCode = c → bits s.statusWord.toNat 11 8 = errCodeValue c := fun c h => by rw [hcode, h]
  refine ⟨by rw [hbusy, busy_eq_true_iff], hdone, herr, hwerr, h7, hcode, h31, hie, hctrl, hxneg, hyneg, hxsign,
    hnumber _, hnumber _, hnumber _, hnumber _, hnumber _, hnumber _, hnumber _, hnumber _⟩

end Sys2Proof.Machine
end

section
/-! SUPPORT. The proofs about the reset input (70_reset_and_hazards.md R230, R231). -/

namespace Sys2Proof.Machine

theorem driveReset_assert (s : State) (hr : s.inReset = false) :
    s.driveReset true = { s.abandon.resetRegs with inReset := true } := by simp [State.driveReset, hr]

theorem driveReset_release (s : State) (hr : s.inReset = true) :
    s.driveReset false = { s.resetRegs with inReset := false } := by simp [State.driveReset, hr]

theorem driveReset_same (s : State) : s.driveReset s.inReset = s := by
  unfold State.driveReset
  cases hr : s.inReset <;> rfl

/-- The abandoned range is empty or begins at DST (R230). -/
theorem abandonedRange_at_dst (s : State) : s.abandonedRange.2 = 0 ∨ s.abandonedRange.1 = s.dst.toNat := by
  unfold State.abandonedRange
  split
  · exact .inr rfl
  · exact .inr rfl
  · exact .inl rfl

/-- Asserting reset draws one byte for each byte of the abandoned range, in order, and keeps every other byte (R230,
R231, U5). -/
theorem abandon_byte (s : State) (a : Nat) :
    if s.phase = .busy ∧ s.dst.toNat ≤ a ∧ a < s.cfg.bufBytes ∧
        ((decode s.cmd = .ok .encrypt ∧ a < s.dst.toNat + s.encLen) ∨
          (decode s.cmd = .ok .decrypt ∧ a < s.dst.toNat + s.len.toNat)) then
      s.draws + (a - s.dst.toNat) < s.abandon.draws ∧
        s.abandon.mem.readByte a = Config.freeByte (s.draws + (a - s.dst.toNat))
    else
      (s.dst.toNat ≤ a → s.abandon.draws ≤ s.draws + (a - s.dst.toNat)) ∧
        s.abandon.mem.readByte a = s.mem.readByte a := by
  have hdst := abandonedRange_at_dst s
  rw [State.abandon_mem, State.abandon_draws, Memory.readByte_scramble]
  split
  next hin =>
    obtain ⟨hlo, hhi⟩ := (mem_abandonedRange_iff s a).mpr hin
    obtain h : s.abandonedRange.1 = s.dst.toNat := hdst.resolve_left (by omega)
    rw [if_pos ⟨hlo, hhi⟩, h]
    exact ⟨by omega, rfl⟩
  next hout =>
    have hrange := mt (mem_abandonedRange_iff s a).mp hout
    rw [if_neg hrange]
    exact ⟨fun hlo => by omega, rfl⟩

/-- Settles O51: asserting, releasing and keeping the level of reset. -/
theorem resetRestoresTheRegisters : Obligations.ResetRestoresTheRegisters := by
  intro s rest
  refine ⟨fun hs hr => ?_, fun hs hr => ?_, fun hs => ?_⟩
  · refine ⟨s.abandon.mem, s.abandon.draws, ?_, Nat.le_add_right _ _, abandon_byte s⟩
    rw [step_reset s true rest hs, driveReset_assert { s with schedule := rest } hr]
    rfl
  · rw [step_reset s false rest hs, driveReset_release { s with schedule := rest } hr]
    rfl
  · rw [step_reset s s.inReset rest hs]
    exact congrArg _ (driveReset_same { s with schedule := rest })

end Sys2Proof.Machine
end

section
/-! SUPPORT. The proofs about a host that loads a big register word by word (30_encoding.md R101). -/

namespace Sys2Proof.Machine

theorem wordOffset_bigAddr (r : BigReg) (j : Nat) (hj : j < 128) : wordOffset (bigAddr r j) = bigOffset r j := by
  have hr := bigRegIndex_le r
  rw [wordOffset_eq, bigAddr, bigOffset, BitVec.toNat_ofNat]
  omega

/-- The host at line `p` of `LDBIG reg, v`. -/
def ldBigAt (cfg : Params) (r : BigReg) (v : Nat) (vars : List Word) (p : Nat) : HostRun :=
  { lines := ldBig cfg r v, pos := p, vars := vars }

theorem line_ldBigAt (cfg : Params) (r : BigReg) (v : Nat) (vars : List Word) (p : Nat) (hp : p < numWords cfg) :
    (ldBigAt cfg r v vars p).line = .wr (bigAddr r p) (.lit (bigWord v p)) := by
  simp [HostRun.line, ldBigAt, ldBig, hp]

/-- A host line that writes a literal is one host write (R100). -/
theorem hostMove_wr (y : System) (off : BusAddr) (w : Word) (h : y.host.line = .wr off (.lit w)) :
    y.hostMove = .next { host := { y.host with pos := y.host.pos + 1 }, engine := y.engine.hostWrite off w } := by
  simp [System.hostMove, HostRun.turn, HostRun.advance, HostRun.value, h, takeTurn]

/-- One line of `LDBIG`, run by an idle engine's host, writes its word and goes on to the next line. -/
theorem hostMove_ldBigAt (s : State) (r : BigReg) (v : Nat) (vars : List Word) (p : Nat) (hr : s.inReset = false)
    (hp : s.phase = .idle) (hop : r = .A ∨ r = .E ∨ r = .M) (hpos : p < numWords s.cfg) (hNW : numWords s.cfg ≤ 128) :
    System.hostMove { host := ldBigAt s.cfg r v vars p, engine := s } =
      .next { host := ldBigAt s.cfg r v vars (p + 1),
              engine := s.setBig r (putBigWord s.cfg.keyBits (s.big r) p (bigWord v p)) } := by
  rw [hostMove_wr _ _ _ (line_ldBigAt s.cfg r v vars p hpos), hostWrite_of_idle s _ _ hr hp,
    locate_of_big _ r p (by omega) (wordOffset_bigAddr r p (by omega)),
    writeLocation_big s _ r p (hostWritable_of_operand r hop) hpos]
  rfl

theorem system_run_host (n : Nat) (y z : System) (h : y.hostMove = .next z) :
    System.run (List.replicate (n + 1) false) y = System.run (List.replicate n false) z := by
  simp [List.replicate_succ, System.run, h]

/-- A word of the register's new value, written. -/
theorem putBigWord_bigWord_testBit (w x v p b : Nat) (hb : b < w) :
    (putBigWord w x p (bigWord v p)).testBit b = if b / 32 = p then v.testBit b else x.testBit b := by
  rw [testBit_putBigWord_of_lt _ _ _ _ _ hb]
  split
  next h =>
    rw [BitVec.getLsbD, toNat_bigWord, Nat.testBit_mod_two_pow, Nat.testBit_div_two_pow,
      show b % 32 + 32 * p = b by omega]
    simp [Nat.mod_lt b]
  next => rfl

/-- From line `p` on, with the words below `p` loaded, the lines that are left load the rest. -/
theorem run_ldBigAt (s : State) (r : BigReg) (v : Nat) (vars : List Word) (hr : s.inReset = false)
    (hidle : s.phase = .idle) (hwf : s.cfg.wf = true) (hop : r = .A ∨ r = .E ∨ r = .M) (hv : v < 2 ^ s.cfg.keyBits)
    (n p x : Nat) (hn : p + n = numWords s.cfg) (hx : x < 2 ^ s.cfg.keyBits)
    (hloaded : ∀ b, b < s.cfg.keyBits → b < 32 * p → x.testBit b = v.testBit b) :
    System.run (List.replicate n false) { host := ldBigAt s.cfg r v vars p, engine := s.setBig r x } =
      .next { host := ldBigAt s.cfg r v vars (numWords s.cfg), engine := s.setBig r v } := by
  obtain ⟨-, hNW, -, hW⟩ := numWords_bounds s.cfg hwf
  induction n generalizing p x with
  | zero =>
    obtain rfl : p = numWords s.cfg := hn
    have hxv : x = v := Nat.eq_of_testBit_eq fun b => by
      by_cases hb : b < s.cfg.keyBits
      · exact hloaded b hb (by omega)
      · have hpow := Nat.pow_le_pow_right (n := 2) (by decide) (Nat.not_lt.mp hb)
        rw [Nat.testBit_lt_two_pow (hx.trans_le hpow), Nat.testBit_lt_two_pow (hv.trans_le hpow)]
    rw [hxv]
    rfl
  | succ n ih =>
    have hmove := hostMove_ldBigAt (s.setBig r x) r v vars p (by simpa using hr) (by simpa using hidle) hop
      (by rw [State.setBig_cfg]; omega) (by rwa [State.setBig_cfg])
    simp only [State.setBig_cfg, State.big_setBig_same, State.setBig_setBig] at hmove
    rw [system_run_host n _ _ hmove]
    refine ih (p + 1) _ (by omega) (putBigWord_lt _ _ _ _ hx) fun b hb hlt => ?_
    rw [putBigWord_bigWord_testBit _ _ _ _ _ hb]
    split
    · rfl
    · exact hloaded b hb (by omega)

/-- Settles O55: before the first line no word is loaded, and the register holds its old value. -/
theorem loadBigRegister : Obligations.LoadBigRegister := by
  intro s r v vars hr hp hwf hop hold hv
  have h := run_ldBigAt s r v vars hr hp hwf hop hv (numWords s.cfg) 0 (s.big r) (Nat.zero_add _) hold
    (fun b _ hb => by omega)
  rwa [State.setBig_big] at h

end Sys2Proof.Machine
end
